-- ==== Sys2Proof/Word.lean ====
section
/-! DEFINITION. The word types of CHIP8-CORE (spec/00_scope.md R3, R4; spec/30_encoding.md R61). -/

namespace Sys2Proof

/-- A memory cell, an immediate `nn`, the value of an 8-bit register (R40, R61, R14). -/
abbrev Byte := BitVec 8

/-- An opcode, the value of I or PC (R60, R17, R18). -/
abbrev Word := BitVec 16

/-- A 12-bit address field `nnn` (R61). -/
abbrev Addr12 := BitVec 12

/-- The number of a general register, 0..15: a 4-bit field is always in range (R61, R14). -/
abbrev RegNo := Fin 16

/-- The row count `n` of `Dxyn`, 0..15 (R61). -/
abbrev RowCount := Fin 16

end Sys2Proof
end

