-- ==== Sys2Proof/Config.lean ====
section
/-! DEFINITION. The parameters of the hardware (spec/00_scope.md R3) and the free values the host draws
(spec/93_implementation_defined.md U2). -/

namespace Sys2Proof.Config

/-- `MEM_SIZE` (R3). -/
def memSize : Nat := 4096

/-- `LOAD_BASE`: the first address of the program image and the reset value of PC (R3). -/
def loadBase : Nat := 0x200

/-- `ROM_MAX`: the largest program image, `MEM_SIZE - LOAD_BASE` (R3). -/
def romMax : Nat := 3584

/-- `FONT_BASE` (R3). -/
def fontBase : Nat := 0

/-- `FONT_SIZE`, 16 glyphs of `GLYPH_BYTES` bytes (R3). -/
def fontSize : Nat := 80

/-- `GLYPH_BYTES` (R3). -/
def glyphBytes : Nat := 5

/-- `INSTR_BYTES`: bytes per instruction, the advance of PC (R3). -/
def instrBytes : Nat := 2

/-- `STACK_CELL`: bytes per stacked return address, the step of SP (R3). -/
def stackCell : Nat := 2

/-- `FB_W`, the framebuffer's width (R3). -/
def fbWidth : Nat := 64

/-- `FB_H`, the framebuffer's height (R3). -/
def fbHeight : Nat := 32

/-- `SPRITE_W`, the columns of one sprite row byte (R3). -/
def spriteWidth : Nat := 8

/-- The two values of the OPEN parameter `SHIFT_SRC` (R3, R114). -/
inductive ShiftSrc where
  /-- `8xy6` and `8xyE` shift Vx. -/
  | vx
  /-- `8xy6` and `8xyE` shift Vy. -/
  | vy
deriving DecidableEq, Repr

/-- The parameters that differ from machine to machine: two OPEN ones and the font table (R3, D4, D5, D10).
They are fixed for the life of a machine (R22, R114); no event changes them. -/
structure Params where
  /-- `STACK_BASE`, the reset value of SP (R19). -/
  stackBase : Byte
  /-- `SHIFT_SRC` (R114). -/
  shiftSrc : ShiftSrc
  /-- `FONT`, the reset contents of the first 80 bytes of memory (R27). -/
  font : Vector Byte 80
deriving DecidableEq, Repr

/-- FREE VALUE (R112, D20, log 8): the byte that `RandomByte()` returns at the draw of that number. -/
opaque randomByte : Nat → Byte

/-- FREE VALUE (R143, D19, log 8): the host's choice at the draw of that number, when several keys are down.
It selects among the keys that are down, so the limit the spec sets is kept (`Machine.chooseKey`). -/
opaque keyChoice : Nat → Nat

end Sys2Proof.Config
end

