-- ==== Sys2Proof/Syntax.lean ====
section
/-! DEFINITION. The instruction set: one constructor per row of spec/opcode_table.json (spec/30_encoding.md R66). -/

namespace Sys2Proof

/-- The 34 instructions of R66, each with the fields its row names. -/
inductive Instr where
  /-- `00E0` CLS (R131). -/
  | cls
  /-- `00EE` RET (R91). -/
  | ret
  /-- `1nnn` JP nnn (R92). -/
  | jp (nnn : Addr12)
  /-- `2nnn` CALL nnn (R93). -/
  | call (nnn : Addr12)
  /-- `3xnn` SE Vx, nn (R94). -/
  | seByte (x : RegNo) (nn : Byte)
  /-- `4xnn` SNE Vx, nn (R95). -/
  | sneByte (x : RegNo) (nn : Byte)
  /-- `5xy0` SE Vx, Vy (R96). -/
  | seReg (x y : RegNo)
  /-- `6xnn` LD Vx, nn (R100). -/
  | ldByte (x : RegNo) (nn : Byte)
  /-- `7xnn` ADD Vx, nn (R101). -/
  | addByte (x : RegNo) (nn : Byte)
  /-- `8xy0` LD Vx, Vy (R102). -/
  | ldReg (x y : RegNo)
  /-- `8xy1` OR Vx, Vy (R103). -/
  | orReg (x y : RegNo)
  /-- `8xy2` AND Vx, Vy (R104). -/
  | andReg (x y : RegNo)
  /-- `8xy3` XOR Vx, Vy (R105). -/
  | xorReg (x y : RegNo)
  /-- `8xy4` ADD Vx, Vy (R106). -/
  | addReg (x y : RegNo)
  /-- `8xy5` SUB Vx, Vy (R107). -/
  | subReg (x y : RegNo)
  /-- `8xy6` SHR Vx, Vy (R108). -/
  | shr (x y : RegNo)
  /-- `8xy7` SUBN Vx, Vy (R109). -/
  | subnReg (x y : RegNo)
  /-- `8xyE` SHL Vx, Vy (R110). -/
  | shl (x y : RegNo)
  /-- `9xy0` SNE Vx, Vy (R97). -/
  | sneReg (x y : RegNo)
  /-- `Annn` LD I, nnn (R120). -/
  | ldI (nnn : Addr12)
  /-- `Bnnn` JP V0, nnn (R98). -/
  | jpV0 (nnn : Addr12)
  /-- `Cxnn` RND Vx, nn (R111). -/
  | rnd (x : RegNo) (nn : Byte)
  /-- `Dxyn` DRW Vx, Vy, n (R132). -/
  | drw (x y : RegNo) (n : RowCount)
  /-- `Ex9E` SKP Vx (R140). -/
  | skp (x : RegNo)
  /-- `ExA1` SKNP Vx (R141). -/
  | sknp (x : RegNo)
  /-- `Fx07` LD Vx, DT (R142). -/
  | ldVxDt (x : RegNo)
  /-- `Fx0A` LD Vx, K (R143). -/
  | ldVxK (x : RegNo)
  /-- `Fx15` LD DT, Vx (R144). -/
  | ldDtVx (x : RegNo)
  /-- `Fx18` LD ST, Vx (R145). -/
  | ldStVx (x : RegNo)
  /-- `Fx1E` ADD I, Vx (R121). -/
  | addI (x : RegNo)
  /-- `Fx29` LD F, Vx (R122). -/
  | ldF (x : RegNo)
  /-- `Fx33` LD B, Vx (R123). -/
  | ldB (x : RegNo)
  /-- `Fx55` LD [I], Vx (R124). -/
  | storeRegs (x : RegNo)
  /-- `Fx65` LD Vx, [I] (R125). -/
  | loadRegs (x : RegNo)
deriving DecidableEq, Repr

end Sys2Proof
end

