-- ==== Sys2Proof/Decode.lean ====
section
/-! DEFINITION. Decoding and encoding of instruction words (spec/30_encoding.md R60 to R68). -/

namespace Sys2Proof

/-! ### Fields of an opcode (R61) -/

/-- `group = opcode[15:12]` (R61). -/
def groupOf (w : Word) : BitVec 4 := w.extractLsb' 12 4

/-- `x = opcode[11:8]` (R61). -/
def xOf (w : Word) : RegNo := (w.extractLsb' 8 4).toFin

/-- `y = opcode[7:4]` (R61). -/
def yOf (w : Word) : RegNo := (w.extractLsb' 4 4).toFin

/-- `n = opcode[3:0]`, as a row count (R61). -/
def nOf (w : Word) : RowCount := (w.extractLsb' 0 4).toFin

/-- `nn = opcode[7:0]` (R61). -/
def nnOf (w : Word) : Byte := w.extractLsb' 0 8

/-- `nnn = opcode[11:0]` (R61). -/
def nnnOf (w : Word) : Addr12 := w.extractLsb' 0 12

/-! ### Decode -/

/-- Why some bytes are no instruction. -/
inductive DecodeError where
  /-- The secondary selector of this word has no handler (R67). -/
  | unknownOpcode (w : Word)
  /-- Fewer than two bytes were given (R60: every instruction is one 16-bit word). -/
  | truncated (available : Nat)
deriving DecidableEq, Repr

/-- Group 0, selected by the low nibble; bits 11..4 take no part (R62, R68). -/
def decodeGroup0 (w : Word) : Except DecodeError Instr :=
  match (nOf w).val with
  | 0x0 => .ok .cls
  | 0xE => .ok .ret
  | _ => .error (.unknownOpcode w)

/-- Group 8, selected by the low nibble (R62, R65, D26). -/
def decodeGroup8 (w : Word) : Except DecodeError Instr :=
  match (nOf w).val with
  | 0x0 => .ok (.ldReg (xOf w) (yOf w))
  | 0x1 => .ok (.orReg (xOf w) (yOf w))
  | 0x2 => .ok (.andReg (xOf w) (yOf w))
  | 0x3 => .ok (.xorReg (xOf w) (yOf w))
  | 0x4 => .ok (.addReg (xOf w) (yOf w))
  | 0x5 => .ok (.subReg (xOf w) (yOf w))
  | 0x6 => .ok (.shr (xOf w) (yOf w))
  | 0x7 => .ok (.subnReg (xOf w) (yOf w))
  | 0xE => .ok (.shl (xOf w) (yOf w))
  | _ => .error (.unknownOpcode w)

/-- Group E, selected by the low byte (R62). -/
def decodeGroupE (w : Word) : Except DecodeError Instr :=
  match (nnOf w).toNat with
  | 0x9E => .ok (.skp (xOf w))
  | 0xA1 => .ok (.sknp (xOf w))
  | _ => .error (.unknownOpcode w)

/-- Group F, selected by the low byte (R62). -/
def decodeGroupF (w : Word) : Except DecodeError Instr :=
  match (nnOf w).toNat with
  | 0x07 => .ok (.ldVxDt (xOf w))
  | 0x0A => .ok (.ldVxK (xOf w))
  | 0x15 => .ok (.ldDtVx (xOf w))
  | 0x18 => .ok (.ldStVx (xOf w))
  | 0x1E => .ok (.addI (xOf w))
  | 0x29 => .ok (.ldF (xOf w))
  | 0x33 => .ok (.ldB (xOf w))
  | 0x55 => .ok (.storeRegs (xOf w))
  | 0x65 => .ok (.loadRegs (xOf w))
  | _ => .error (.unknownOpcode w)

/-- The two-level decode of R62: the top nibble selects one of 16 primary groups, four of which are decoded further. -/
def decodeWord (w : Word) : Except DecodeError Instr :=
  match (groupOf w).toNat with
  | 0x0 => decodeGroup0 w
  | 0x1 => .ok (.jp (nnnOf w))
  | 0x2 => .ok (.call (nnnOf w))
  | 0x3 => .ok (.seByte (xOf w) (nnOf w))
  | 0x4 => .ok (.sneByte (xOf w) (nnOf w))
  | 0x5 => .ok (.seReg (xOf w) (yOf w))
  | 0x6 => .ok (.ldByte (xOf w) (nnOf w))
  | 0x7 => .ok (.addByte (xOf w) (nnOf w))
  | 0x8 => decodeGroup8 w
  | 0x9 => .ok (.sneReg (xOf w) (yOf w))
  | 0xA => .ok (.ldI (nnnOf w))
  | 0xB => .ok (.jpV0 (nnnOf w))
  | 0xC => .ok (.rnd (xOf w) (nnOf w))
  | 0xD => .ok (.drw (xOf w) (yOf w) (nOf w))
  | 0xE => decodeGroupE w
  | _ => decodeGroupF w

/-- Two bytes as one opcode, the byte at the lower address the more significant half (R60, R45). -/
def wordOfBytes (hi lo : Byte) : Word := hi ++ lo

/-- The byte of an opcode that lies at the lower address (R60, R45). -/
def highByte (w : Word) : Byte := w.extractLsb' 8 8

/-- The byte of an opcode that lies at the higher address (R60, R45). -/
def lowByte (w : Word) : Byte := w.extractLsb' 0 8

/-- Decode the first instruction of any byte string, and the bytes after it (R60). -/
def decodeBytes : List Byte → Except DecodeError (Instr × List Byte)
  | hi :: lo :: rest =>
    match decodeWord (wordOfBytes hi lo) with
    | .ok i => .ok (i, rest)
    | .error e => .error e
  | bytes => .error (.truncated bytes.length)

/-! ### Encode -/

/-- A register number or a row count as the 4 bits of its field (R61). -/
def nibble (x : Fin 16) : BitVec 4 := BitVec.ofFin x

/-- Format A: group and a 12-bit address (R63). -/
def formatA (g : BitVec 4) (nnn : Addr12) : Word := g ++ nnn

/-- Formats XK and XS: group, a register, a byte (an immediate or a selector) (R63). -/
def formatXK (g : BitVec 4) (x : RegNo) (nn : Byte) : Word := g ++ nibble x ++ nn

/-- Formats XY and XYN: group, two registers, a nibble (a selector or a row count) (R63). -/
def formatXYN (g : BitVec 4) (x y : RegNo) (n : RowCount) : Word :=
  g ++ nibble x ++ nibble y ++ nibble n

/-- The canonical word of an instruction: the pattern of R66 with its fields put in ("An assembler always emits the
canonical encoding", R70). -/
def encode : Instr → Word
  | .cls => 0x00E0
  | .ret => 0x00EE
  | .jp nnn => formatA 0x1 nnn
  | .call nnn => formatA 0x2 nnn
  | .seByte x nn => formatXK 0x3 x nn
  | .sneByte x nn => formatXK 0x4 x nn
  | .seReg x y => formatXYN 0x5 x y 0x0
  | .ldByte x nn => formatXK 0x6 x nn
  | .addByte x nn => formatXK 0x7 x nn
  | .ldReg x y => formatXYN 0x8 x y 0x0
  | .orReg x y => formatXYN 0x8 x y 0x1
  | .andReg x y => formatXYN 0x8 x y 0x2
  | .xorReg x y => formatXYN 0x8 x y 0x3
  | .addReg x y => formatXYN 0x8 x y 0x4
  | .subReg x y => formatXYN 0x8 x y 0x5
  | .shr x y => formatXYN 0x8 x y 0x6
  | .subnReg x y => formatXYN 0x8 x y 0x7
  | .shl x y => formatXYN 0x8 x y 0xE
  | .sneReg x y => formatXYN 0x9 x y 0x0
  | .ldI nnn => formatA 0xA nnn
  | .jpV0 nnn => formatA 0xB nnn
  | .rnd x nn => formatXK 0xC x nn
  | .drw x y n => formatXYN 0xD x y n
  | .skp x => formatXK 0xE x 0x9E
  | .sknp x => formatXK 0xE x 0xA1
  | .ldVxDt x => formatXK 0xF x 0x07
  | .ldVxK x => formatXK 0xF x 0x0A
  | .ldDtVx x => formatXK 0xF x 0x15
  | .ldStVx x => formatXK 0xF x 0x18
  | .addI x => formatXK 0xF x 0x1E
  | .ldF x => formatXK 0xF x 0x29
  | .ldB x => formatXK 0xF x 0x33
  | .storeRegs x => formatXK 0xF x 0x55
  | .loadRegs x => formatXK 0xF x 0x65

/-- The bytes of an instruction as they lie in memory (R60). -/
def encodeBytes (i : Instr) : List Byte := [highByte (encode i), lowByte (encode i)]

/-! ### The opcode map (R66) -/

/-- One row of the opcode map: "a word `w` is the instruction iff `w & mask = match`" (R66). -/
structure OpcodeRow where
  mnemonic : String
  mask : Word
  pattern : Word
deriving DecidableEq, Repr

/-- The row of R66 that an instruction belongs to. -/
def opcodeRow : Instr → OpcodeRow
  | .cls => ⟨"CLS", 0xF00F, 0x0000⟩
  | .ret => ⟨"RET", 0xF00F, 0x000E⟩
  | .jp _ => ⟨"JP_nnn", 0xF000, 0x1000⟩
  | .call _ => ⟨"CALL_nnn", 0xF000, 0x2000⟩
  | .seByte _ _ => ⟨"SE_Vx__nn", 0xF000, 0x3000⟩
  | .sneByte _ _ => ⟨"SNE_Vx__nn", 0xF000, 0x4000⟩
  | .seReg _ _ => ⟨"SE_Vx__Vy", 0xF000, 0x5000⟩
  | .ldByte _ _ => ⟨"LD_Vx__nn", 0xF000, 0x6000⟩
  | .addByte _ _ => ⟨"ADD_Vx__nn", 0xF000, 0x7000⟩
  | .ldReg _ _ => ⟨"LD_Vx__Vy", 0xF00F, 0x8000⟩
  | .orReg _ _ => ⟨"OR_Vx__Vy", 0xF00F, 0x8001⟩
  | .andReg _ _ => ⟨"AND_Vx__Vy", 0xF00F, 0x8002⟩
  | .xorReg _ _ => ⟨"XOR_Vx__Vy", 0xF00F, 0x8003⟩
  | .addReg _ _ => ⟨"ADD_Vx__Vy", 0xF00F, 0x8004⟩
  | .subReg _ _ => ⟨"SUB_Vx__Vy", 0xF00F, 0x8005⟩
  | .shr _ _ => ⟨"SHR_Vx__Vy", 0xF00F, 0x8006⟩
  | .subnReg _ _ => ⟨"SUBN_Vx__Vy", 0xF00F, 0x8007⟩
  | .shl _ _ => ⟨"SHL_Vx__Vy", 0xF00F, 0x800E⟩
  | .sneReg _ _ => ⟨"SNE_Vx__Vy", 0xF000, 0x9000⟩
  | .ldI _ => ⟨"LD_I__nnn", 0xF000, 0xA000⟩
  | .jpV0 _ => ⟨"JP_V0__nnn", 0xF000, 0xB000⟩
  | .rnd _ _ => ⟨"RND_Vx__nn", 0xF000, 0xC000⟩
  | .drw _ _ _ => ⟨"DRW_Vx__Vy__n", 0xF000, 0xD000⟩
  | .skp _ => ⟨"SKP_Vx", 0xF0FF, 0xE09E⟩
  | .sknp _ => ⟨"SKNP_Vx", 0xF0FF, 0xE0A1⟩
  | .ldVxDt _ => ⟨"LD_Vx__DT", 0xF0FF, 0xF007⟩
  | .ldVxK _ => ⟨"LD_Vx__K", 0xF0FF, 0xF00A⟩
  | .ldDtVx _ => ⟨"LD_DT__Vx", 0xF0FF, 0xF015⟩
  | .ldStVx _ => ⟨"LD_ST__Vx", 0xF0FF, 0xF018⟩
  | .addI _ => ⟨"ADD_I__Vx", 0xF0FF, 0xF01E⟩
  | .ldF _ => ⟨"LD_F__Vx", 0xF0FF, 0xF029⟩
  | .ldB _ => ⟨"LD_B__Vx", 0xF0FF, 0xF033⟩
  | .storeRegs _ => ⟨"LD__I___Vx", 0xF0FF, 0xF055⟩
  | .loadRegs _ => ⟨"LD_Vx___I", 0xF0FF, 0xF065⟩

/-! ### The host's view of the decoder -/

/-- The instruction the decoder reads from the word whose bits are `w`, bit 0 the least significant, every bit from
`nbits` up being 0: its two bytes laid out as the hardware stores them (R60) and decoded. -/
def decodeTableWord (nbits w : Nat) : Option Instr :=
  let word : Word := BitVec.ofNat 16 (w % 2 ^ nbits)
  match decodeBytes [highByte word, lowByte word] with
  | .ok (i, _) => some i
  | .error _ => none

end Sys2Proof
end

