-- ==== Sys2Proof/WellFormed.lean ====
section
/-! DEFINITION. The checks on the data a machine is given: its parameters and a program image.
An instruction needs none: the types of `Instr`'s fields are the field widths of spec/30_encoding.md R61, and
"Register numbers and counts can never be out of range" (R61), so every term of `Instr` is well-formed. -/

namespace Sys2Proof

/-- The bounds the spec sets on the OPEN parameter `STACK_BASE`: even, and 0x50 ≤ STACK_BASE ≤ 0xFE (R3, D4). -/
def Config.Params.wf (p : Config.Params) : Bool :=
  p.stackBase.toNat % 2 == 0 && decide (0x50 ≤ p.stackBase.toNat) && decide (p.stackBase.toNat ≤ 0xFE)

/-- A program image the loader accepts: at most 3584 bytes (R155, R176). -/
def imageWf (rom : List Byte) : Bool := decide (rom.length ≤ Config.romMax)

end Sys2Proof
end

