-- ==== Sys2Proof/Machine/Defaults.lean ====
section
/-! DEFINITION. The parameter values of the machine that `State.reset` describes. Every one of them is a choice
(logs 1, 2, 3): a statement about all states holds for every value. -/

namespace Sys2Proof.Machine

/-- The conventional hexadecimal font: the table of R27, which the spec marks as general knowledge.
PRESUMED (log 3), unsafe. -/
def defaultFont : Vector Byte 80 := Vector.mk #[
  0xF0, 0x90, 0x90, 0x90, 0xF0, 0x20, 0x60, 0x20, 0x20, 0x70,
  0xF0, 0x10, 0xF0, 0x80, 0xF0, 0xF0, 0x10, 0xF0, 0x10, 0xF0,
  0x90, 0x90, 0xF0, 0x10, 0x10, 0xF0, 0x80, 0xF0, 0x10, 0xF0,
  0xF0, 0x80, 0xF0, 0x90, 0xF0, 0xF0, 0x10, 0x20, 0x40, 0x40,
  0xF0, 0x90, 0xF0, 0x90, 0xF0, 0xF0, 0x90, 0xF0, 0x10, 0xF0,
  0xF0, 0x90, 0xF0, 0x90, 0x90, 0xE0, 0x90, 0xE0, 0x90, 0xE0,
  0xF0, 0x80, 0x80, 0x80, 0xF0, 0xE0, 0x90, 0x90, 0x90, 0xE0,
  0xF0, 0x80, 0xF0, 0x80, 0xF0, 0xF0, 0x80, 0xF0, 0x80, 0x80] rfl

/-- `STACK_BASE` of the examples of the spec, "the first byte above the font table" (D4).
DESIGN CHOICE (log 1), unsafe. -/
def defaultStackBase : Byte := 0x50

/-- `SHIFT_SRC`: the spec leaves it open and names no default (D5). DESIGN CHOICE (log 2), unsafe. -/
def defaultShiftSrc : Config.ShiftSrc := .vx

/-- The parameters of the machine that `State.reset` describes (logs 1, 2, 3). -/
def defaultParams : Config.Params :=
  { stackBase := defaultStackBase, shiftSrc := defaultShiftSrc, font := defaultFont }

end Sys2Proof.Machine
end

