-- ==== Sys2Proof/Machine/State.lean ====
section
/-! DEFINITION. The state of CHIP8-CORE (spec/10_state.md R10), its faults, and its state after reset (R26). -/

namespace Sys2Proof.Machine

/-- A Register: a value of a fixed width and the two flags its latest write left (R11). -/
structure Reg (w : Nat) where
  value : BitVec w
  overflowed : Bool
  borrowed : Bool
deriving DecidableEq, Repr

/-- What a fault of a step records: the address of the instruction, its 16 bits (0 if the fault is in the fetch),
and the cause-specific value (R151). -/
structure FaultInfo where
  pc0 : Word
  opcode : Word
  value : Nat
deriving DecidableEq, Repr

/-- The fatal errors (R150, R151). Each one is the spec's own, so stopping with it is faithful, and safe. -/
inductive Fault where
  /-- Cause 1. Raised by the decode of any step whose word selects no handler (R152). Safe: the spec's own stop. -/
  | unknownOpcode (info : FaultInfo)
  /-- Cause 2. Raised by the fetch of any step and by `Dxyn`, `Fx33`, `Fx55`, `Fx65` at an address from 4096 up (R153).
  Safe: the spec's own stop. -/
  | addressRange (info : FaultInfo)
  /-- Cause 3. Raised by `Ex9E` and `ExA1` when Vx > 0xF (R154, the spec's decision D13). Safe: errs toward unprovable. -/
  | keyCodeRange (info : FaultInfo)
  /-- Cause 0x80. Raised by the event `Reset(rom)` when the image has more than 3584 bytes (R155). Safe: the spec's own stop. -/
  | loadError (length : Nat)
deriving DecidableEq, Repr

/-- The cause codes of R151. -/
def Fault.code : Fault → Nat
  | .unknownOpcode _ => 1
  | .addressRange _ => 2
  | .keyCodeRange _ => 3
  | .loadError _ => 0x80

/-- Where the model gives no next state although nothing is wrong. -/
inductive Refusal where
  /-- Raised by an arm of `exec` whose instruction has no meaning yet. No arm of this model raises it. Safe. -/
  | notModelled (mnemonic : String)
  /-- Raised by `step` when the run has ended by `Quit`: "no further `Step` or `Tick` occurs" (R160, log 21). Safe. -/
  | runEnded
deriving DecidableEq, Repr

/-- The run status (R32). -/
inductive Status where
  | running
  | faulted (cause : Fault)
  | quit
deriving DecidableEq, Repr

/-- The events that drive the block (spec/00_scope.md section 6, R168). -/
inductive HostEvent where
  /-- One instruction (R80). -/
  | step
  /-- One decrement of both timers (R146). -/
  | tick
  /-- The host changes the live key levels (R30). -/
  | keys (levels : BitVec 16)
  /-- The host has read the framebuffer (R29). -/
  | redrawAck
  /-- The scheduler ends the run (R160). -/
  | quit
  /-- Reset with a program image (R175). -/
  | reset (rom : List Byte)
deriving DecidableEq, Repr

/-- Memory: the cells that differ from what memory holds after a reset with an empty image, by rising address
(R23, R40). What an unlisted address reads as is `Memory.unlisted`. -/
abbrev Memory := List Host.Cell

/-- The framebuffer, 32 rows (the top one first) of 64 pixels (the leftmost one first) (R25, R130). -/
abbrev Framebuffer := Vector (Vector Bool 64) 32

/-- Everything the spec gives the machine (R10), its parameters (R3), and the host's inputs as data (R31). -/
structure State where
  /-- `V[0]`..`V[15]` (R14). -/
  v : Vector (Reg 8) 16
  /-- The index register (R18). -/
  i : Reg 16
  /-- The program counter (R17). -/
  pc : Reg 16
  /-- The stack pointer (R19). -/
  sp : Reg 8
  /-- The delay timer (R20). -/
  dt : Reg 8
  /-- The sound timer (R21). -/
  st : Reg 8
  /-- Memory (R23). -/
  mem : Memory
  /-- The framebuffer (R25). -/
  fb : Framebuffer
  /-- The redraw mark `fb_dirty` (R29). -/
  fbDirty : Bool
  /-- The run status (R32). -/
  status : Status
  /-- The parameters, fixed for the life of a machine (R3, R22). -/
  params : Config.Params
  /-- MODEL'S OWN: the live key levels, an input of every step (R30, log 6). -/
  keys : BitVec 16
  /-- MODEL'S OWN: the host's events to come, the next one first; when none is listed every event is `Step` (log 7). -/
  schedule : List HostEvent
  /-- MODEL'S OWN: how many draws were taken; it indexes the free values of `Config` (log 8). -/
  draws : Nat
deriving DecidableEq, Repr

/-- A Register at reset: value and flags 0 except where the spec gives a value (R26, log 4). -/
def Reg.initial {w : Nat} (value : BitVec w) : Reg w := { value, overflowed := false, borrowed := false }

/-- The table of R26 for the machine with parameters `p` and an empty program image. -/
def State.initial (p : Config.Params) : State :=
  { v := Vector.replicate 16 (Reg.initial 0)
    i := Reg.initial 0
    pc := Reg.initial (BitVec.ofNat 16 Config.loadBase)
    sp := Reg.initial p.stackBase
    dt := Reg.initial 0
    st := Reg.initial 0
    mem := []
    fb := Vector.replicate 32 (Vector.replicate 64 false)
    fbDirty := false
    status := .running
    params := p
    keys := 0
    schedule := []
    draws := 0 }

/-- The machine right after reset (R26), with the parameters of `defaultParams` (logs 1, 2, 3), before an image is
loaded (log 9). -/
def State.reset : State := State.initial defaultParams

end Sys2Proof.Machine
end

