-- ==== Sys2Proof/Machine/Ops.lean ====
section
/-! DEFINITION. The named operations over registers, memory and the framebuffer, and the ways an instruction ends
(spec/10_state.md R12, R13; spec/20_memory.md R42 to R45; spec/40_step_cycle.md R83 to R86; spec/60_exceptions.md R150). -/

namespace Sys2Proof.Machine

/-- What one instruction or one event answers. -/
abbrev Result := Host.Outcome State Fault Refusal

/-! ### The Register contract -/

/-- `RegSet_W(r, v)`: the register after any integer is written to it (R12). -/
def regSet (w : Nat) (v : Int) : Reg w :=
  { value := BitVec.ofInt w v
    overflowed := decide (((2 ^ w : Nat) : Int) ≤ v)
    borrowed := decide (v < 0) }

/-- `add(delta)` (R13). -/
def regAdd {w : Nat} (r : Reg w) (delta : Int) : Reg w := regSet w (r.value.toNat + delta)

/-- The number of the register that doubles as the flag (R14, R15). -/
abbrev VF : RegNo := 15

/-- The Register `Vx`. -/
def State.reg (s : State) (x : RegNo) : Reg 8 := s.v[x]

/-- The value of `Vx`, as a number (R11). -/
def State.V (s : State) (x : RegNo) : Nat := (s.reg x).value.toNat

/-- `V[x] <- v` (R5, R12). -/
def State.setV (s : State) (x : RegNo) (v : Int) : State := { s with v := s.v.set x (regSet 8 v) }

/-- `I <- v` (R5, R12). -/
def State.setI (s : State) (v : Int) : State := { s with i := regSet 16 v }

/-- `PC <- v` (R5, R12). -/
def State.setPC (s : State) (v : Int) : State := { s with pc := regSet 16 v }

/-- `SP <- v` (R5, R12). -/
def State.setSP (s : State) (v : Int) : State := { s with sp := regSet 8 v }

/-- `DT <- v` (R5, R12). -/
def State.setDT (s : State) (v : Int) : State := { s with dt := regSet 8 v }

/-- `ST <- v` (R5, R12). -/
def State.setST (s : State) (v : Int) : State := { s with st := regSet 8 v }

/-! ### Memory -/

/-- What an address that is not listed reads as: the reset contents before an image is loaded, the font table in the
first 80 bytes and zeros (R26, R27, R49). -/
def Memory.unlisted (font : Vector Byte 80) (a : Nat) : Byte := if h : a < 80 then font[a] else 0

/-- The byte listed at an address. -/
def Memory.lookup : Memory → Nat → Option Byte
  | [], _ => none
  | (b, v) :: rest, a => if a = b then some v else Memory.lookup rest a

/-- The byte at an address. -/
def Memory.get (font : Vector Byte 80) (m : Memory) (a : Nat) : Byte := (m.lookup a).getD (Memory.unlisted font a)

/-- List a byte at an address, in address order. -/
def Memory.put : Memory → Nat → Byte → Memory
  | [], a, v => [(a, v)]
  | (b, w) :: rest, a, v =>
    if a < b then (a, v) :: (b, w) :: rest
    else if a = b then (a, v) :: rest
    else (b, w) :: Memory.put rest a v

/-- Take an address off the list. -/
def Memory.drop : Memory → Nat → Memory
  | [], _ => []
  | (b, w) :: rest, a => if a = b then Memory.drop rest a else (b, w) :: Memory.drop rest a

/-- Write a byte, keeping the canonical form: the byte an unlisted address reads as is not listed. -/
def Memory.set (font : Vector Byte 80) (m : Memory) (a : Nat) (v : Byte) : Memory :=
  if v = Memory.unlisted font a then m.drop a else m.put a v

/-- The addresses of a list of cells rise strictly. -/
def Memory.rising : Memory → Bool
  | [] => true
  | (a, _) :: rest => rest.all (fun c => decide (a < c.1)) && Memory.rising rest

/-- The canonical form: addresses strictly rising and inside the 4096 bytes, and no entry equal to what an unlisted
address reads as. -/
def Memory.wf (font : Vector Byte 80) (m : Memory) : Bool :=
  m.rising && m.all (fun c => decide (c.1 < Config.memSize) && decide (c.2 ≠ Memory.unlisted font c.1))

/-- Bytes written at ascending addresses from `a` (R176). -/
def Memory.setBytes (font : Vector Byte 80) (m : Memory) (a : Nat) : List Byte → Memory
  | [] => m
  | b :: bs => Memory.setBytes font (m.set font a b) (a + 1) bs

/-- The byte of memory at an address, without the range check. -/
def State.byteAt (s : State) (a : Nat) : Byte := s.mem.get s.params.font a

/-- `MemRead(a, 1)`: the byte, or the address that is out of range (R42, R43). -/
def State.memRead1 (s : State) (a : Nat) : Except Nat Byte :=
  if a < Config.memSize then .ok (s.byteAt a) else .error a

/-- `MemRead(a, 2)`, more significant byte first (R43, R45). -/
def State.memRead2 (s : State) (a : Nat) : Except Nat Word :=
  match s.memRead1 a with
  | .error e => .error e
  | .ok hi =>
    match s.memRead1 (a + 1) with
    | .error e => .error e
    | .ok lo => .ok (wordOfBytes hi lo)

/-- `MemWrite(a, 1, v)` (R42, R44). -/
def State.memWrite1 (s : State) (a : Nat) (v : Byte) : Except Nat State :=
  if a < Config.memSize then .ok { s with mem := s.mem.set s.params.font a v } else .error a

/-- `MemWrite(a, 2, v)`, more significant byte first (R44, R45). -/
def State.memWrite2 (s : State) (a : Nat) (v : Word) : Except Nat State :=
  match s.memWrite1 a (highByte v) with
  | .error e => .error e
  | .ok s' => s'.memWrite1 (a + 1) (lowByte v)

/-- `count` single bytes read at ascending addresses from `a` (R47, R126). -/
def State.readBytes (s : State) : (a count : Nat) → Except Nat (List Byte)
  | _, 0 => .ok []
  | a, count + 1 =>
    match s.memRead1 a with
    | .error e => .error e
    | .ok b =>
      match s.readBytes (a + 1) count with
      | .error e => .error e
      | .ok bs => .ok (b :: bs)

/-- Single bytes written at ascending addresses from `a` (R47, R126). -/
def State.writeBytes (s : State) : (a : Nat) → List Byte → Except Nat State
  | _, [] => .ok s
  | a, b :: bs =>
    match s.memWrite1 a b with
    | .error e => .error e
    | .ok s' => s'.writeBytes (a + 1) bs

/-! ### The framebuffer -/

/-- `FB[px, py]` (R130). -/
def Framebuffer.get (fb : Framebuffer) (px : Fin 64) (py : Fin 32) : Bool := fb[py][px]

/-- `FB[px, py] <- b` (R130). -/
def Framebuffer.set (fb : Framebuffer) (px : Fin 64) (py : Fin 32) (b : Bool) : Framebuffer :=
  Vector.set fb py ((fb[py]).set px b)

/-- All 2048 pixels 0 (R131). -/
def Framebuffer.clear : Framebuffer := Vector.replicate 32 (Vector.replicate 64 false)

/-- The pixel of the state. -/
def State.pixel (s : State) (px : Fin 64) (py : Fin 32) : Bool := Framebuffer.get s.fb px py

/-- A new framebuffer, marked for redraw once (R29, R131, R132). -/
def State.setScreen (s : State) (fb : Framebuffer) : State := { s with fb := fb, fbDirty := true }

/-- What a blit has made so far: the framebuffer, and whether a collision was seen. -/
structure Blit where
  fb : Framebuffer
  collided : Bool
deriving DecidableEq, Repr

/-- One sprite bit XORed onto one pixel; a 1 on a 1 is a collision (R132). -/
def blitPixel (px : Fin 64) (py : Fin 32) (color : Bool) (b : Blit) : Blit :=
  let old := Framebuffer.get b.fb px py
  { fb := Framebuffer.set b.fb px py (old ^^ color), collided := b.collided || (color && old) }

/-- The column and the row of a sprite's bit (i, j), reduced for each pixel separately (R130, R132). -/
def spriteColumn (vx i : Nat) : Fin 64 := Fin.ofNat 64 (vx + i)

/-- The row of the framebuffer that row `j` of a sprite falls on (R130, R132). -/
def spriteRow (vy j : Nat) : Fin 32 := Fin.ofNat 32 (vy + j)

/-- Columns `i`, `i + 1`, … of one row byte, `count` of them; bit `7 - i` is the color of column `i` (R132). -/
def blitColumns (vx : Nat) (py : Fin 32) (row : Byte) : (i count : Nat) → Blit → Blit
  | _, 0, b => b
  | i, count + 1, b =>
    blitColumns vx py row (i + 1) count (blitPixel (spriteColumn vx i) py (row.getLsbD (7 - i)) b)

/-- The row bytes of a sprite, from row `j` on (R132). -/
def blitRows (vx vy : Nat) : (j : Nat) → List Byte → Blit → Blit
  | _, [], b => b
  | j, row :: rows, b =>
    blitRows vx vy (j + 1) rows (blitColumns vx (spriteRow vy j) row 0 Config.spriteWidth b)

/-! ### Draws -/

/-- One draw has been taken. -/
def State.nextDraw (s : State) : State := { s with draws := s.draws + 1 }

/-! ### How an instruction ends (R83) -/

/-- The advance: PC rises by 2 (R84). -/
def State.advance (s : State) : State := s.setPC (s.pc.value.toNat + Config.instrBytes)

/-- The extra `PC <- PC + 2` of a skip whose condition holds (R85). -/
def State.skipIf (s : State) (condition : Bool) : State :=
  if condition then s.setPC (s.pc.value.toNat + Config.instrBytes) else s

/-- The handler did not take over PC: the advance follows (R83, R84). -/
def endContinue (s : State) : Result := .next s.advance

/-- The handler wrote PC itself: no advance (R83, R84). -/
def endJumped (s : State) : Result := .next s

/-- The hold: no state changes at all (R86). -/
def endHold (s : State) : Result := .next s

/-- `raise <Fault>(value)`: the step ends with the fault and its record (R150, R151). There is no trap entry: nothing is
saved and control goes nowhere (R161). No state is handed out (R157, U1). -/
def raise (cause : FaultInfo → Fault) (s : State) (opcode : Word) (value : Nat) : Result :=
  .fault (cause { pc0 := s.pc.value, opcode := opcode, value := value })

/-- Go on with what a checked access gave, or end with `AddressRange` at the address it names (R42, R153). -/
def withAccess {α : Type} (i : Instr) (s : State) (access : Except Nat α) (go : α → Result) : Result :=
  match access with
  | .error a => raise .addressRange s (encode i) a
  | .ok x => go x

/-! ### The host's view of a fault -/

/-- What the host sees once a step has answered the fault `cause`: `status <- Faulted(cause, info)` (R32, R150).
`after` is a state the spec says nothing of (R157). -/
def latchFault (cause : Fault) (after : State) : State := { after with status := .faulted cause }

end Sys2Proof.Machine
end

