-- ==== Sys2Proof/Machine/Operands.lean ====
section
/-! DEFINITION. The operand forms (spec/30_encoding.md R64, spec/42_alu.md R114, spec/43_index_memory.md R126,
spec/10_state.md R30). -/

namespace Sys2Proof.Machine

/-- The immediate `nn`, zero-extended (R64). -/
def immByte (nn : Byte) : Int := nn.toNat

/-- The immediate `nnn`, zero-extended (R64). -/
def immAddr (nnn : Addr12) : Int := nnn.toNat

/-- The value of `Vx` as 8 bits, for the bitwise operations (R113). -/
def State.bits (s : State) (x : RegNo) : Byte := (s.reg x).value

/-- `src` of the shifts: `Vx` or `Vy`, as `SHIFT_SRC` says (R114). -/
def State.shiftSource (s : State) (x y : RegNo) : Nat :=
  match s.params.shiftSrc with
  | .vx => s.V x
  | .vy => s.V y

/-- `EA(k) = I + k`, a mathematical integer (R126). -/
def State.ea (s : State) (k : Nat) : Nat := s.i.value.toNat + k

/-- The registers `V0..Vx`, in order (R124, R125). -/
def regsUpTo (x : RegNo) : List RegNo := (List.finRange 16).take (x.val + 1)

/-- The address of the glyph of a value: `FONT_BASE + 5 * v`, not masked (R122). -/
def glyphAddress (v : Nat) : Nat := Config.fontBase + Config.glyphBytes * v

/-- The three decimal digits of a value, hundreds first (R123). -/
def decimalDigits (v : Nat) : List Byte :=
  [BitVec.ofNat 8 (v / 100), BitVec.ofNat 8 (v / 10 % 10), BitVec.ofNat 8 (v % 10)]

/-- `KeyDown(k)`, the live level of key `k` (R30). -/
def State.keyDown (s : State) (k : Nat) : Bool := s.keys.getLsbD k

/-- The keys that are down (R143). -/
def State.downKeys (s : State) : List (Fin 16) := (List.finRange 16).filter (fun k => s.keyDown k.val)

/-- The host's choice among the keys that are down, the first of them and the others (R143, D19). With one key down
there is nothing to choose; with several it is a draw. -/
def chooseKey (s : State) (key : Fin 16) (others : List (Fin 16)) : Fin 16 × State :=
  match others with
  | [] => (key, s)
  | _ :: _ => ((key :: others).getD (Config.keyChoice s.draws % (others.length + 1)) key, s.nextDraw)

/-- `RandomByte()`, and the state with that draw taken (R112). -/
def drawByte (s : State) : Byte × State := (Config.randomByte s.draws, s.nextDraw)

end Sys2Proof.Machine
end

