-- ==== Sys2Proof/Machine/Flags.lean ====
section
/-! DEFINITION. The values written to VF (spec/10_state.md R15). The Register flags are read directly after the write that
left them (R13). -/

namespace Sys2Proof.Machine

/-- `ovf(V[x])`, the carry of `8xy4` and the bit shifted out of `8xyE` (R13, R15). -/
def overflowFlag (s : State) (x : RegNo) : Int := (s.reg x).overflowed.toNat

/-- `1 - bor(V[x])`, the not-borrow of `8xy5` and `8xy7` (R13, R15). -/
def notBorrowFlag (s : State) (x : RegNo) : Int := 1 - ((s.reg x).borrowed.toNat : Int)

/-- `s[0]`, the bit that `8xy6` shifts out (R108). -/
def rightBitOut (src : Nat) : Int := ((src % 2 : Nat) : Int)

/-- The collision flag of `Dxyn` (R132). -/
def collisionFlag (collided : Bool) : Int := collided.toNat

end Sys2Proof.Machine
end

