-- ==== Sys2Proof/Machine/Alu.lean ====
section
/-! DEFINITION. Register load, arithmetic, logic, shifts and random (spec/42_alu.md). -/

namespace Sys2Proof.Machine

/-- `6xnn` LD Vx, nn (R100): `V[x] <- nn`. -/
def execLdByte (x : RegNo) (nn : Byte) (s : State) : Result :=
  endContinue (s.setV x (immByte nn))

/-- `7xnn` ADD Vx, nn (R101): `V[x] <- V[x] + nn`; VF is not written. -/
def execAddByte (x : RegNo) (nn : Byte) (s : State) : Result :=
  endContinue (s.setV x (s.V x + immByte nn))

/-- `8xy0` LD Vx, Vy (R102): `V[x] <- V[y]`. -/
def execLdReg (x y : RegNo) (s : State) : Result :=
  endContinue (s.setV x (s.V y))

/-- `8xy1` OR Vx, Vy (R103). -/
def execOrReg (x y : RegNo) (s : State) : Result :=
  endContinue (s.setV x (s.bits x ||| s.bits y).toNat)

/-- `8xy2` AND Vx, Vy (R104). -/
def execAndReg (x y : RegNo) (s : State) : Result :=
  endContinue (s.setV x (s.bits x &&& s.bits y).toNat)

/-- `8xy3` XOR Vx, Vy (R105). -/
def execXorReg (x y : RegNo) (s : State) : Result :=
  endContinue (s.setV x (s.bits x ^^^ s.bits y).toNat)

/-- A result to Vx first, then a flag, read from the state that write left, to VF (R16). -/
def resultThenFlag (s : State) (x : RegNo) (result : Int) (flag : State → Int) : Result :=
  let s1 := s.setV x result
  endContinue (s1.setV VF (flag s1))

/-- `8xy4` ADD Vx, Vy (R106): `V[x] <- V[x] + V[y]; V[15] <- ovf(V[x])`. -/
def execAddReg (x y : RegNo) (s : State) : Result :=
  resultThenFlag s x (s.V x + s.V y) (fun s1 => overflowFlag s1 x)

/-- `8xy5` SUB Vx, Vy (R107): `V[x] <- V[x] - V[y]; V[15] <- 1 - bor(V[x])`. -/
def execSubReg (x y : RegNo) (s : State) : Result :=
  resultThenFlag s x (s.V x - s.V y) (fun s1 => notBorrowFlag s1 x)

/-- `8xy6` SHR Vx, Vy (R108): `s <- src; V[x] <- s >> 1; V[15] <- s[0]`. -/
def execShr (x y : RegNo) (s : State) : Result :=
  let src := s.shiftSource x y
  resultThenFlag s x ((src >>> 1 : Nat) : Int) (fun _ => rightBitOut src)

/-- `8xy7` SUBN Vx, Vy (R109): `V[x] <- V[y] - V[x]; V[15] <- 1 - bor(V[x])`. -/
def execSubnReg (x y : RegNo) (s : State) : Result :=
  resultThenFlag s x (s.V y - s.V x) (fun s1 => notBorrowFlag s1 x)

/-- `8xyE` SHL Vx, Vy (R110): `s <- src; V[x] <- s << 1; V[15] <- ovf(V[x])`. -/
def execShl (x y : RegNo) (s : State) : Result :=
  resultThenFlag s x ((s.shiftSource x y <<< 1 : Nat) : Int) (fun s1 => overflowFlag s1 x)

/-- `Cxnn` RND Vx, nn (R111): `r <- RandomByte(); V[x] <- r & nn`. -/
def execRnd (x : RegNo) (nn : Byte) (s : State) : Result :=
  let r := drawByte s
  endContinue (r.2.setV x (r.1 &&& nn).toNat)

end Sys2Proof.Machine
end

