-- ==== Sys2Proof/Machine/Control.lean ====
section
/-! DEFINITION. Control transfer: return, jump, call, skips, indexed jump (spec/41_control_flow.md). -/

namespace Sys2Proof.Machine

/-- `00EE` RET (R91, R90): `SP <- SP - 2; PC <- MemRead(SP, 2)`. -/
def execRet (s : State) : Result :=
  let s1 := s.setSP (s.sp.value.toNat - (Config.stackCell : Int))
  withAccess .ret s (s1.memRead2 s1.sp.value.toNat) (fun target => endJumped (s1.setPC target.toNat))

/-- `1nnn` JP nnn (R92): `PC <- nnn`. -/
def execJp (nnn : Addr12) (s : State) : Result :=
  endJumped (s.setPC (immAddr nnn))

/-- The return address that `2nnn` pushes: `pc0 + 2` (R93, conflict C1). -/
def returnAddress (s : State) : Word := s.pc.value + BitVec.ofNat 16 Config.instrBytes

/-- `2nnn` CALL nnn (R93, R90): `MemWrite(SP, 2, pc0 + 2); SP <- SP + 2; PC <- nnn`. -/
def execCall (nnn : Addr12) (s : State) : Result :=
  withAccess (.call nnn) s (s.memWrite2 s.sp.value.toNat (returnAddress s)) (fun s1 =>
    endJumped ((s1.setSP (s1.sp.value.toNat + Config.stackCell)).setPC (immAddr nnn)))

/-- `3xnn` SE Vx, nn (R94): skip if Vx = nn. -/
def execSeByte (x : RegNo) (nn : Byte) (s : State) : Result :=
  endContinue (s.skipIf (decide ((s.V x : Int) = immByte nn)))

/-- `4xnn` SNE Vx, nn (R95): skip if Vx differs from nn. -/
def execSneByte (x : RegNo) (nn : Byte) (s : State) : Result :=
  endContinue (s.skipIf (decide ((s.V x : Int) ≠ immByte nn)))

/-- `5xy0` SE Vx, Vy (R96): skip if Vx = Vy. -/
def execSeReg (x y : RegNo) (s : State) : Result :=
  endContinue (s.skipIf (decide (s.V x = s.V y)))

/-- `9xy0` SNE Vx, Vy (R97): skip if Vx differs from Vy. -/
def execSneReg (x y : RegNo) (s : State) : Result :=
  endContinue (s.skipIf (decide (s.V x ≠ s.V y)))

/-- `Bnnn` JP V0, nnn (R98): `PC <- V[0] + nnn`. -/
def execJpV0 (nnn : Addr12) (s : State) : Result :=
  endJumped (s.setPC (s.V 0 + immAddr nnn))

end Sys2Proof.Machine
end

