-- ==== Sys2Proof/Machine/Display.lean ====
section
/-! DEFINITION. Framebuffer instructions (spec/44_display.md). -/

namespace Sys2Proof.Machine

/-- `00E0` CLS (R131): every pixel 0, the framebuffer marked for redraw; VF is not written. -/
def execCls (s : State) : Result :=
  endContinue (s.setScreen Framebuffer.clear)

/-- `Dxyn` DRW Vx, Vy, n (R132): Vx and Vy are read once, before VF is reset (D7); the sprite bytes are read before VF or a
pixel is written; VF is 0 first and 1 after a collision; the framebuffer is marked once. -/
def execDrw (x y : RegNo) (n : RowCount) (s : State) : Result :=
  let vx := s.V x
  let vy := s.V y
  withAccess (.drw x y n) s (s.readBytes (s.ea 0) n.val) (fun rows =>
    let s1 := s.setV VF 0
    let blit := blitRows vx vy 0 rows { fb := s1.fb, collided := false }
    endContinue ((s1.setV VF (collisionFlag blit.collided)).setScreen blit.fb))

end Sys2Proof.Machine
end

