-- ==== Sys2Proof/Machine/IndexMemory.lean ====
section
/-! DEFINITION. Index register and memory transfer instructions (spec/43_index_memory.md). -/

namespace Sys2Proof.Machine

/-- `Annn` LD I, nnn (R120): `I <- nnn`. -/
def execLdI (nnn : Addr12) (s : State) : Result :=
  endContinue (s.setI (immAddr nnn))

/-- `Fx1E` ADD I, Vx (R121): `I <- I + V[x]`; VF is not written. -/
def execAddI (x : RegNo) (s : State) : Result :=
  endContinue (s.setI (s.i.value.toNat + s.V x))

/-- `Fx29` LD F, Vx (R122): `I <- FONT_BASE + 5 * V[x]`, the whole 8-bit Vx. -/
def execLdF (x : RegNo) (s : State) : Result :=
  endContinue (s.setI (glyphAddress (s.V x)))

/-- `Fx33` LD B, Vx (R123): the three decimal digits of Vx at I, I + 1, I + 2. -/
def execLdB (x : RegNo) (s : State) : Result :=
  withAccess (.ldB x) s (s.writeBytes (s.ea 0) (decimalDigits (s.V x))) endContinue

/-- `Fx55` LD [I], Vx (R124): V0..Vx stored at I, I + 1, …; I is not changed (R126). -/
def execStoreRegs (x : RegNo) (s : State) : Result :=
  withAccess (.storeRegs x) s (s.writeBytes (s.ea 0) ((regsUpTo x).map s.bits)) endContinue

/-- Bytes put into registers in order (R125). -/
def fillRegs (s : State) : List RegNo → List Byte → State
  | k :: ks, b :: bs => fillRegs (s.setV k b.toNat) ks bs
  | _, _ => s

/-- `Fx65` LD Vx, [I] (R125): V0..Vx loaded from I, I + 1, …; I is not changed (R126). The addresses do not depend on the
registers, so the bytes may be read before the registers are written. -/
def execLoadRegs (x : RegNo) (s : State) : Result :=
  withAccess (.loadRegs x) s (s.readBytes (s.ea 0) (x.val + 1)) (fun bytes =>
    endContinue (fillRegs s (regsUpTo x) bytes))

end Sys2Proof.Machine
end

