-- ==== Sys2Proof/Machine/KeypadTimers.lean ====
section
/-! DEFINITION. Keypad and timer instructions, and the timer tick (spec/45_keypad_timers.md). -/

namespace Sys2Proof.Machine

/-- The keypad skips: the whole of Vx is the key code; a code above 15 is a `KeyCodeRange` fault (R140, R141, R154). -/
def skipOnKey (i : Instr) (x : RegNo) (wanted : Bool) (s : State) : Result :=
  if 15 < s.V x then raise .keyCodeRange s (encode i) (s.V x)
  else endContinue (s.skipIf (s.keyDown (s.V x) == wanted))

/-- `Ex9E` SKP Vx (R140): skip if key Vx is down. -/
def execSkp (x : RegNo) (s : State) : Result := skipOnKey (.skp x) x true s

/-- `ExA1` SKNP Vx (R141): skip if key Vx is not down. -/
def execSknp (x : RegNo) (s : State) : Result := skipOnKey (.sknp x) x false s

/-- `Fx07` LD Vx, DT (R142): `V[x] <- DT`. -/
def execLdVxDt (x : RegNo) (s : State) : Result :=
  endContinue (s.setV x s.dt.value.toNat)

/-- `Fx0A` LD Vx, K (R143): hold while no key is down; else Vx receives the code of a key that is down, the host's choice. -/
def execLdVxK (x : RegNo) (s : State) : Result :=
  match s.downKeys with
  | [] => endHold s
  | key :: others =>
    let choice := chooseKey s key others
    endContinue (choice.2.setV x choice.1.val)

/-- `Fx15` LD DT, Vx (R144): `DT <- V[x]`. -/
def execLdDtVx (x : RegNo) (s : State) : Result :=
  endContinue (s.setDT (s.V x))

/-- `Fx18` LD ST, Vx (R145): `ST <- V[x]`. -/
def execLdStVx (x : RegNo) (s : State) : Result :=
  endContinue (s.setST (s.V x))

/-- One timer at a tick: the value falls by 1, floored at 0, and the flags stay (R146). -/
def tickReg (r : Reg 8) : Reg 8 := if r.value = 0 then r else { r with value := r.value - 1 }

/-- The `Tick` event on a running machine (R146). -/
def State.tick (s : State) : State := { s with dt := tickReg s.dt, st := tickReg s.st }

end Sys2Proof.Machine
end

