-- ==== Sys2Proof/Machine/Events.lean ====
section
/-! DEFINITION. The events that drive the block: the instruction step, the tick, and the host's events
(spec/40_step_cycle.md R80 to R87; spec/60_exceptions.md R150, R160, R168; spec/70_reset_and_hazards.md R175, R176). -/

namespace Sys2Proof.Machine

/-- Fetch: the opcode at PC, or the first address out of range (R81). -/
def fetch (s : State) : Except Nat Word := s.memRead2 s.pc.value.toNat

/-- One `Step` of a running machine: fetch, decode, execute (with the advance) (R80 to R84); the first fault met ends it,
the fetch's with opcode 0 (R151, R156). -/
def instructionStep (s : State) : Result :=
  match fetch s with
  | .error a => raise .addressRange s 0 a
  | .ok w =>
    match decodeWord w with
    | .error _ => raise .unknownOpcode s w w.toNat
    | .ok i => exec i s

/-- `Step` and `Tick` are enabled only in `Running` (R32). A faulted machine stays stopped with its fault, and a run that
`Quit` ended has no further step (R150, R160, log 21). -/
def whenRunning (s : State) (r : Result) : Result :=
  match s.status with
  | .running => r
  | .faulted cause => .fault cause
  | .quit => .refused .runEnded

/-- The status after the `Quit` event (R160); a faulted machine stays faulted (R32, log 21). -/
def quitStatus : Status → Status
  | .running => .quit
  | .faulted cause => .faulted cause
  | .quit => .quit

/-- The `Reset(rom)` event: all previous state is discarded and the image is loaded at 0x200, or the load is rejected
(R175, R176, R155). The parameters and the environment's own data stay (log 22). -/
def resetEvent (rom : List Byte) (s : State) : Result :=
  if imageWf rom then
    .next { State.initial s.params with
      mem := Memory.setBytes s.params.font [] Config.loadBase rom
      keys := s.keys
      schedule := s.schedule
      draws := s.draws }
  else .fault (.loadError rom.length)

/-- One host event (spec/00_scope.md section 6). -/
def performEvent (e : HostEvent) (s : State) : Result :=
  match e with
  | .step => whenRunning s (instructionStep s)
  | .tick => whenRunning s (.next s.tick)
  | .keys levels => .next { s with keys := levels }
  | .redrawAck => .next { s with fbDirty := false }
  | .quit => .next { s with status := quitStatus s.status }
  | .reset rom => resetEvent rom s

/-- Where the next instruction is fetched from: PC, or LOAD_BASE where no instruction can be fetched at PC (log 9). -/
def fetchPlace (s : State) : State :=
  if s.pc.value.toNat + 1 < Config.memSize then s else s.setPC Config.loadBase

/-- A word placed where the next instruction is fetched, with nothing pending before it (log 9). -/
def placeWord (s : State) (w : Word) : State :=
  let s1 := { fetchPlace s with status := .running, schedule := [] }
  { s1 with mem := Memory.setBytes s1.params.font s1.mem s1.pc.value.toNat [highByte w, lowByte w] }

end Sys2Proof.Machine
end

