-- ==== Sys2Proof/Machine/Step.lean ====
section
/-! DEFINITION. One step of the machine: the next event of the schedule (spec/00_scope.md section 6). -/

namespace Sys2Proof.Machine

/-- One event: the one at the head of the schedule, or `Step` when none is listed (log 7). -/
def step (s : State) : Host.Outcome State Fault Refusal :=
  match s.schedule with
  | [] => performEvent .step s
  | e :: rest => performEvent e { s with schedule := rest }

/-- `s` with the instruction whose bits are `w` stored where `step` fetches its next instruction (log 9). -/
def State.withFetchWord (s : State) (nbits w : Nat) : State := placeWord s (BitVec.ofNat 16 (w % 2 ^ nbits))

end Sys2Proof.Machine
end

