-- ==== Sys2Proof/Safety.lean ====
section
/-! DEFINITION. The terms claims are stated in: what an instruction may change, the invariant of the machine, and what
cannot be observed. -/

namespace Sys2Proof.Machine

/-! ### Frames -/

/-- The parts of the state, apart from PC, that an instruction is allowed to change. -/
structure Footprint where
  /-- the general registers -/
  regs : RegNo → Prop := fun _ => False
  /-- the index register -/
  index : Prop := False
  /-- the stack pointer -/
  stack : Prop := False
  /-- the delay timer -/
  delay : Prop := False
  /-- the sound timer -/
  sound : Prop := False
  /-- the addresses of memory -/
  bytes : Nat → Prop := fun _ => False
  /-- the framebuffer and the redraw mark -/
  screen : Prop := False
  /-- the count of draws -/
  draw : Prop := False

/-- Everything outside the footprint is unchanged, the Register flags included; status, parameters, key levels and
schedule are always unchanged. The program counter is not spoken of. -/
structure Frame (f : Footprint) (s t : State) : Prop where
  regs : ∀ r, ¬ f.regs r → t.reg r = s.reg r
  index : ¬ f.index → t.i = s.i
  stack : ¬ f.stack → t.sp = s.sp
  delay : ¬ f.delay → t.dt = s.dt
  sound : ¬ f.sound → t.st = s.st
  bytes : ∀ a, ¬ f.bytes a → t.byteAt a = s.byteAt a
  screen : ¬ f.screen → t.fb = s.fb ∧ t.fbDirty = s.fbDirty
  draw : ¬ f.draw → t.draws = s.draws
  status : t.status = s.status
  params : t.params = s.params
  keys : t.keys = s.keys
  schedule : t.schedule = s.schedule

/-! ### Encodings -/

/-- Every word with these bits under this mask decodes to this instruction with its fields read from the word (R66). -/
def EncodedBy (mask pattern : Word) (instr : Word → Instr) : Prop :=
  ∀ w : Word, w &&& mask = pattern → decodeWord w = .ok (instr w)

/-- A word whose secondary selector has no handler (R67). -/
def unknownWord (w : Word) : Bool :=
  match (groupOf w).toNat with
  | 0x0 => !([0x0, 0xE].contains (nOf w).val)
  | 0x8 => [0x8, 0x9, 0xA, 0xB, 0xC, 0xD, 0xF].contains (nOf w).val
  | 0xE => !([0x9E, 0xA1].contains (nnOf w).toNat)
  | 0xF => !([0x07, 0x0A, 0x15, 0x18, 0x1E, 0x29, 0x33, 0x55, 0x65].contains (nnOf w).toNat)
  | _ => false

/-! ### The invariant -/

/-- "At most one flag is 1 after a write" (R12). -/
def Reg.oneFlag {w : Nat} (r : Reg w) : Prop := ¬ (r.overflowed = true ∧ r.borrowed = true)

/-- What holds at reset and after every event. -/
structure Inv (s : State) : Prop where
  /-- the parameters are admissible (R3) -/
  params : s.params.wf = true
  /-- memory is in canonical form, inside the 4096 bytes (R40) -/
  memory : Memory.wf s.params.font s.mem = true
  /-- "SP is even at all times" (R19) -/
  stackEven : s.sp.value.toNat % 2 = 0
  /-- at most one flag of a register is 1 (R12) -/
  regFlags : ∀ x, (s.reg x).oneFlag
  indexFlags : s.i.oneFlag
  pcFlags : s.pc.oneFlag
  stackFlags : s.sp.oneFlag
  delayFlags : s.dt.oneFlag
  soundFlags : s.st.oneFlag

/-! ### What no program can observe -/

/-- Apply a change to the next state of an outcome. -/
def mapNext (h : State → State) : Result → Result
  | .next t => .next (h t)
  | .fault f => .fault f
  | .refused r => .refused r

/-- The part of the state that `erase` takes away influences nothing else: a step of the erased state and a step of the
state give the same outcome once that part is taken away. -/
def Unobservable (erase : State → State) : Prop :=
  ∀ s, mapNext erase (step s) = mapNext erase (step (erase s))

/-- A register with its flags taken away. -/
def Reg.erase {w : Nat} (r : Reg w) : Reg w := Reg.initial r.value

/-- The state without the 42 Register flags (R28). -/
def eraseFlags (s : State) : State :=
  { s with
    v := s.v.map Reg.erase
    i := s.i.erase
    pc := s.pc.erase
    sp := s.sp.erase
    dt := s.dt.erase
    st := s.st.erase }

/-- The state without the redraw mark (R29). -/
def eraseRedraw (s : State) : State := { s with fbDirty := false }

/-- The state without the sound timer (R21). -/
def eraseSound (s : State) : State := { s with st := Reg.initial 0 }

/-! ### Sprites -/

/-- A bit 1 of the sprite of `n` rows at I, drawn at (vx, vy), falls on pixel (px, py): the set `P(S)` of R133. -/
def SpriteCovers (s : State) (vx vy n : Nat) (px : Fin 64) (py : Fin 32) : Prop :=
  ∃ j i, j < n ∧ i < 8 ∧ (s.byteAt (s.ea j)).getLsbD (7 - i) = true ∧
    (vx + i) % 64 = px.val ∧ (vy + j) % 32 = py.val

/-! ### Runs -/

/-- `n` steps in a row, ending early with the first fault or refusal. -/
def stepN : Nat → State → Result
  | 0, s => .next s
  | n + 1, s =>
    match step s with
    | .next t => stepN n t
    | .fault f => .fault f
    | .refused r => .refused r

/-! ### Kinds of instruction -/

/-- The four handlers that set PC themselves (R83). -/
def jumps : Instr → Bool
  | .ret | .jp _ | .call _ | .jpV0 _ => true
  | _ => false

/-- The six skips (R85). -/
def skips : Instr → Bool
  | .seByte _ _ | .sneByte _ _ | .seReg _ _ | .sneReg _ _ | .skp _ | .sknp _ => true
  | _ => false

/-- A `Step` comes next: the machine runs, and the schedule is empty or has `Step` at its head, `rest` following
(R32, log 7). -/
def StepComesNext (s : State) (rest : List HostEvent) : Prop :=
  s.status = .running ∧ ((s.schedule = [] ∧ rest = []) ∨ s.schedule = .step :: rest)

/-- The condition of a skip (R94 to R97, R140, R141). -/
def skipHolds (s : State) : Instr → Prop
  | .seByte x nn => s.V x = nn.toNat
  | .sneByte x nn => s.V x ≠ nn.toNat
  | .seReg x y => s.V x = s.V y
  | .sneReg x y => s.V x ≠ s.V y
  | .skp x => s.keyDown (s.V x) = true
  | .sknp x => s.keyDown (s.V x) = false
  | _ => False

/-- The general registers an instruction may write: its destination, and VF where it writes a flag (R14, R15). -/
def writesReg (i : Instr) (r : RegNo) : Prop :=
  match i with
  | .ldByte x _ | .addByte x _ | .ldReg x _ | .orReg x _ | .andReg x _ | .xorReg x _ | .rnd x _ | .ldVxDt x | .ldVxK x => r = x
  | .addReg x _ | .subReg x _ | .shr x _ | .subnReg x _ | .shl x _ => r = x ∨ r = VF
  | .drw _ _ _ => r = VF
  | .loadRegs x => r ≤ x
  | _ => False

/-- The addresses an instruction stores to (R47). -/
def storesTo (s : State) (i : Instr) (a : Nat) : Prop :=
  match i with
  | .call _ => s.sp.value.toNat ≤ a ∧ a < s.sp.value.toNat + 2
  | .ldB _ => s.ea 0 ≤ a ∧ a < s.ea 3
  | .storeRegs x => s.ea 0 ≤ a ∧ a < s.ea (x.val + 1)
  | _ => False

end Sys2Proof.Machine
end

