-- ==== Sys2Proof/Certificates/Slice0/Obligations.lean ====
section
/-! DEFINITION. The statements about CHIP8-CORE, from the numbered rules of spec/. -/

open Sys2Proof Sys2Proof.Machine

/-! ### Encoding -/

/-- R61: the fields of an opcode, as the source writes them with masks and shifts. -/
def Obligations.OpcodeFieldsAreTheMaskedBits : Prop :=
  ∀ w : Word,
    (groupOf w).toNat = (w >>> 12).toNat ∧
    (xOf w).val = ((w &&& 0x0F00) >>> 8).toNat ∧
    (yOf w).val = ((w &&& 0x00F0) >>> 4).toNat ∧
    (nOf w).val = (w &&& 0x000F).toNat ∧
    (nnOf w).toNat = (w &&& 0x00FF).toNat ∧
    (nnnOf w).toNat = (w &&& 0x0FFF).toNat ∧
    (nnOf w).toNat = (yOf w).val * 16 + (nOf w).val ∧
    (nnnOf w).toNat = (xOf w).val * 256 + (yOf w).val * 16 + (nOf w).val

/-- R66: words written out from the patterns of the opcode map, one or more of each group, decode to their instruction. -/
def Obligations.WrittenOutWordsDecode : Prop :=
  decodeBytes [0x00, 0xE0] = .ok (.cls, []) ∧ decodeBytes [0x00, 0xEE] = .ok (.ret, []) ∧
  decodeBytes [0x12, 0x04] = .ok (.jp 0x204, []) ∧ decodeBytes [0x2A, 0xBC] = .ok (.call 0xABC, []) ∧
  decodeBytes [0x33, 0x2A] = .ok (.seByte 3 0x2A, []) ∧ decodeBytes [0x43, 0x2A] = .ok (.sneByte 3 0x2A, []) ∧
  decodeBytes [0x51, 0x20] = .ok (.seReg 1 2, []) ∧ decodeBytes [0x6A, 0x55] = .ok (.ldByte 10 0x55, []) ∧
  decodeBytes [0x70, 0xFF] = .ok (.addByte 0 0xFF, []) ∧ decodeBytes [0x80, 0x14] = .ok (.addReg 0 1, []) ∧
  decodeBytes [0x8F, 0x16] = .ok (.shr 15 1, []) ∧ decodeBytes [0x80, 0xFE] = .ok (.shl 0 15, []) ∧
  decodeBytes [0x91, 0x20] = .ok (.sneReg 1 2, []) ∧ decodeBytes [0xA3, 0x00] = .ok (.ldI 0x300, []) ∧
  decodeBytes [0xB4, 0xFE] = .ok (.jpV0 0x4FE, []) ∧ decodeBytes [0xC1, 0x0F] = .ok (.rnd 1 0x0F, []) ∧
  decodeBytes [0xD1, 0x25] = .ok (.drw 1 2 5, []) ∧ decodeBytes [0xE4, 0x9E] = .ok (.skp 4, []) ∧
  decodeBytes [0xE4, 0xA1] = .ok (.sknp 4, []) ∧ decodeBytes [0xF3, 0x0A] = .ok (.ldVxK 3, []) ∧
  decodeBytes [0xF2, 0x55] = .ok (.storeRegs 2, []) ∧ decodeBytes [0xF2, 0x65] = .ok (.loadRegs 2, [])

/-- R60, R66, R70: for every instruction with every operand, its two bytes decode to it, and the bytes after it are left. -/
def Obligations.DecodeOfEncodeIsTheInstruction : Prop :=
  ∀ (i : Instr) (rest : List Byte), decodeBytes (encodeBytes i ++ rest) = .ok (i, rest)

/-- R66: a word is an instruction of a row iff its bits under the row's mask are the row's match. -/
def Obligations.OpcodeMapSelectsTheInstruction : Prop :=
  (∀ (w : Word) (i : Instr), decodeWord w = .ok i → w &&& (opcodeRow i).mask = (opcodeRow i).pattern) ∧
  (∀ (w : Word) (i : Instr), w &&& (opcodeRow i).mask = (opcodeRow i).pattern →
    ∃ j, decodeWord w = .ok j ∧ opcodeRow j = opcodeRow i)

/-- R68: group-0 words with low nibble 0 or 0xE, and all group-5 and group-9 words, execute as `00E0`, `00EE`, `5xy0`,
`9xy0` (the spec's decision D17, log 11); every other instruction has the one word of its pattern. -/
def Obligations.AliasWordsDecodeAsTheCanonicalOne : Prop :=
  (∀ w : Word, w &&& 0xF00F = 0x0000 → decodeWord w = .ok .cls) ∧
  (∀ w : Word, w &&& 0xF00F = 0x000E → decodeWord w = .ok .ret) ∧
  (∀ w : Word, w &&& 0xF000 = 0x5000 → decodeWord w = .ok (.seReg (xOf w) (yOf w))) ∧
  (∀ w : Word, w &&& 0xF000 = 0x9000 → decodeWord w = .ok (.sneReg (xOf w) (yOf w))) ∧
  (∀ (w : Word) (i : Instr), decodeWord w = .ok i → groupOf w ≠ 0x0 → groupOf w ≠ 0x5 → groupOf w ≠ 0x9 →
    w = encode i)

/-- R67, R152: a word decodes to no instruction exactly when its secondary selector has no handler, and the step that
fetches it ends with `UnknownOpcode` and its record (the record is the spec's decision D14, log 10). -/
def Obligations.UnknownOpcodeIsFatal : Prop :=
  (∀ w : Word, (decodeWord w = .error (.unknownOpcode w) ↔ unknownWord w = true) ∧
    ((∃ i, decodeWord w = .ok i) ↔ unknownWord w = false)) ∧
  (∀ (s : State) (rest : List HostEvent) (w : Word), StepComesNext s rest → fetch s = .ok w → unknownWord w = true →
    step s = .fault (.unknownOpcode { pc0 := s.pc.value, opcode := w, value := w.toNat }))

/-! ### Registers and memory -/

/-- R12, R13: a write stores the value modulo 2^width and sets `overflowed` iff it was at least 2^width and `borrowed` iff
it was negative, never both; `add` is a write of the sum; the named writes of the state's registers are this write, at
each register's width. -/
def Obligations.RegisterWriteWrapsAndFlags : Prop :=
  (∀ (w : Nat) (v : Int),
    ((regSet w v).value.toNat : Int) = v % 2 ^ w ∧
    ((regSet w v).overflowed = true ↔ 2 ^ w ≤ v) ∧
    ((regSet w v).borrowed = true ↔ v < 0) ∧
    ¬ ((regSet w v).overflowed = true ∧ (regSet w v).borrowed = true) ∧
    ∀ r : Reg w, regAdd r v = regSet w (r.value.toNat + v)) ∧
  ∀ (s : State) (x : RegNo) (v : Int),
    (s.setV x v).reg x = regSet 8 v ∧ (s.setI v).i = regSet 16 v ∧ (s.setPC v).pc = regSet 16 v ∧
    (s.setSP v).sp = regSet 8 v ∧ (s.setDT v).dt = regSet 8 v ∧ (s.setST v).st = regSet 8 v

/-- R42, R43, R44: accesses inside 0..4095 complete, one byte or two with the more significant first; a written byte is
read back and no other byte changes; an address from 4096 up is rejected with the first offending address. -/
def Obligations.MemoryAccessContract : Prop :=
  ∀ (s : State) (a : Nat) (b : Byte) (v : Word),
    (a < 4096 → s.memRead1 a = .ok (s.byteAt a) ∧
      ∃ t, s.memWrite1 a b = .ok t ∧ t.byteAt a = b ∧ t.pc = s.pc ∧ Frame { bytes := fun c => c = a } s t) ∧
    (4096 ≤ a → s.memRead1 a = .error a ∧ s.memWrite1 a b = .error a) ∧
    (a + 1 < 4096 → s.memRead2 a = .ok (s.byteAt a ++ s.byteAt (a + 1)) ∧
      ∃ t, s.memWrite2 a v = .ok t ∧ t.byteAt a ++ t.byteAt (a + 1) = v ∧ t.pc = s.pc ∧
        Frame { bytes := fun c => c = a ∨ c = a + 1 } s t) ∧
    (4096 ≤ a + 1 → s.memRead2 a = .error (max a 4096) ∧ s.memWrite2 a v = .error (max a 4096))

/-- Equal memories are equal data: two memories in canonical form that read alike at all 4096 addresses are the same list. -/
def Obligations.CanonicalMemoryIsUnique : Prop :=
  ∀ (font : Vector Byte 80) (m m' : Memory), Memory.wf font m = true → Memory.wf font m' = true →
    (∀ a, a < 4096 → Memory.get font m a = Memory.get font m' a) → m = m'

/-! ### The step -/

/-- R81: the fetch reads the two bytes at PC, odd or even, the first the more significant; from PC = 4095 up the step
ends with `AddressRange` at the first offending address, opcode 0 in the record (decisions D14 to D16, logs 10, 12). -/
def Obligations.FetchIsBigEndianAndRangeChecked : Prop :=
  ∀ s : State,
    (s.pc.value.toNat ≤ 4094 →
      fetch s = .ok (s.byteAt s.pc.value.toNat ++ s.byteAt (s.pc.value.toNat + 1))) ∧
    (4094 < s.pc.value.toNat → ∀ rest, StepComesNext s rest →
      step s = .fault (.addressRange { pc0 := s.pc.value, opcode := 0, value := max s.pc.value.toNat 4096 }))

/-- R80, R82, R83: when the bytes at PC decode to an instruction, the step is that instruction's execution (the advance is
part of it), at the state with the event taken off the schedule. -/
def Obligations.StepRunsTheDecodedInstruction : Prop :=
  ∀ (s : State) (rest : List HostEvent) (w : Word) (i : Instr),
    StepComesNext s rest → fetch s = .ok w → decodeWord w = .ok i → step s = exec i { s with schedule := rest }

/-- R151, R156: the fault of a step is the first of: the fetch's, the decode's, the instruction's own; its record holds the
address of the instruction, its word (0 for a fetch fault) and the cause's value. -/
def Obligations.FaultRecordNamesTheInstruction : Prop :=
  ∀ (s : State) (rest : List HostEvent) (f : Fault), StepComesNext s rest → step s = .fault f →
    (4094 < s.pc.value.toNat ∧
      f = .addressRange { pc0 := s.pc.value, opcode := 0, value := max s.pc.value.toNat 4096 }) ∨
    ∃ w, fetch s = .ok w ∧
      ((unknownWord w = true ∧ f = .unknownOpcode { pc0 := s.pc.value, opcode := w, value := w.toNat }) ∨
       (unknownWord w = false ∧ [0xD, 0xF].contains (groupOf w) ∧
          f = .addressRange { pc0 := s.pc.value, opcode := w, value := max s.i.value.toNat 4096 }) ∨
       (unknownWord w = false ∧ groupOf w = 0xE ∧ 15 < s.V (xOf w) ∧
          f = .keyCodeRange { pc0 := s.pc.value, opcode := w, value := s.V (xOf w) }))

/-- R153, R154: an instruction faults only so: the sprite read, the digit writes, the register transfers when an address
from 4096 up would be accessed, the keypad skips when Vx is above 15. -/
def Obligations.OnlyTheseInstructionsFault : Prop :=
  ∀ (i : Instr) (s : State) (f : Fault), exec i s = .fault f ↔
    (((∃ x y n, i = .drw x y n ∧ 1 ≤ n.val ∧ 4095 < s.i.value.toNat + n.val - 1) ∨
      (∃ x, i = .ldB x ∧ 4095 < s.i.value.toNat + 2) ∨
      (∃ x, (i = .storeRegs x ∨ i = .loadRegs x) ∧ 4095 < s.i.value.toNat + x.val)) ∧
      f = .addressRange { pc0 := s.pc.value, opcode := encode i, value := max s.i.value.toNat 4096 }) ∨
    (∃ x, (i = .skp x ∨ i = .sknp x) ∧ 15 < s.V x ∧
      f = .keyCodeRange { pc0 := s.pc.value, opcode := encode i, value := s.V x })

/-- R163: every instruction may be executed at any time; none is refused. -/
def Obligations.NoInstructionIsRefused : Prop :=
  ∀ (i : Instr) (s : State) (r : Refusal), exec i s ≠ .refused r

/-- R84, R85, R86: where PC stands after an instruction that does not fault: the target for the four that jump (R84), pc0 + 4
(the advance on top of the handler's own write) for a skip whose condition holds (R85), pc0 with nothing changed for a hold
(R86), else pc0 + 2 (R84). That a hold is a next state equal to the state before is the model's form (log 25), and R85 marks
its total of pc0 + 4 "derived". -/
def Obligations.ProgramCounterAfterAnInstruction : Prop :=
  ∀ (i : Instr) (s t : State), exec i s = .next t →
    (∀ nnn, i = .jp nnn ∨ i = .call nnn → t.pc.value.toNat = nnn.toNat) ∧
    (∀ nnn, i = .jpV0 nnn → t.pc.value.toNat = s.V 0 + nnn.toNat) ∧
    (i = .ret → t.pc.value = s.byteAt t.sp.value.toNat ++ s.byteAt (t.sp.value.toNat + 1)) ∧
    (skips i = true → skipHolds s i → t.pc = regAdd (regAdd s.pc 2) 2 ∧ t.pc.value = s.pc.value + 4) ∧
    (skips i = true → ¬ skipHolds s i → t.pc = regAdd s.pc 2 ∧ t.pc.value = s.pc.value + 2) ∧
    ((∃ x, i = .ldVxK x) → s.keys = 0 → t = s) ∧
    ((∃ x, i = .ldVxK x) → s.keys ≠ 0 → t.pc = regAdd s.pc 2 ∧ t.pc.value = s.pc.value + 2) ∧
    (jumps i = false → skips i = false → (∀ x, i ≠ .ldVxK x) →
      t.pc = regAdd s.pc 2 ∧ t.pc.value = s.pc.value + 2)

/-! ### Load, arithmetic, logic, shifts, random -/

/-- R100, R101: `6xnn` and `7xnn` write Vx, wrapping modulo 256, and nothing else (VF only when it is Vx). -/
def Obligations.LoadAndAddByte : Prop :=
  EncodedBy 0xF000 0x6000 (fun w => .ldByte (xOf w) (nnOf w)) ∧
  EncodedBy 0xF000 0x7000 (fun w => .addByte (xOf w) (nnOf w)) ∧
  ∀ (s : State) (x : RegNo) (nn : Byte),
    (∃ t, exec (.ldByte x nn) s = .next t ∧ t.reg x = regSet 8 nn.toNat ∧ t.V x = nn.toNat ∧
      t.pc = regAdd s.pc 2 ∧ Frame { regs := fun r => r = x } s t) ∧
    (∃ t, exec (.addByte x nn) s = .next t ∧ t.reg x = regSet 8 (s.V x + nn.toNat) ∧
      t.V x = (s.V x + nn.toNat) % 256 ∧ t.pc = regAdd s.pc 2 ∧ Frame { regs := fun r => r = x } s t)

/-- R102, R103, R104, R105: assign, OR, AND, XOR write Vx and do not touch VF unless it is Vx. -/
def Obligations.MoveAndLogic : Prop :=
  EncodedBy 0xF00F 0x8000 (fun w => .ldReg (xOf w) (yOf w)) ∧
  EncodedBy 0xF00F 0x8001 (fun w => .orReg (xOf w) (yOf w)) ∧
  EncodedBy 0xF00F 0x8002 (fun w => .andReg (xOf w) (yOf w)) ∧
  EncodedBy 0xF00F 0x8003 (fun w => .xorReg (xOf w) (yOf w)) ∧
  ∀ (s : State) (x y : RegNo),
    (∃ t, exec (.ldReg x y) s = .next t ∧ t.reg x = regSet 8 (s.V y) ∧ t.V x = s.V y ∧
      t.pc = regAdd s.pc 2 ∧ Frame { regs := fun r => r = x } s t) ∧
    (∃ t, exec (.orReg x y) s = .next t ∧ t.reg x = regSet 8 (s.V x ||| s.V y : Nat) ∧ t.V x = s.V x ||| s.V y ∧
      t.pc = regAdd s.pc 2 ∧ Frame { regs := fun r => r = x } s t) ∧
    (∃ t, exec (.andReg x y) s = .next t ∧ t.reg x = regSet 8 (s.V x &&& s.V y : Nat) ∧ t.V x = s.V x &&& s.V y ∧
      t.pc = regAdd s.pc 2 ∧ Frame { regs := fun r => r = x } s t) ∧
    (∃ t, exec (.xorReg x y) s = .next t ∧ t.reg x = regSet 8 (s.V x ^^^ s.V y : Nat) ∧ t.V x = s.V x ^^^ s.V y ∧
      t.pc = regAdd s.pc 2 ∧ Frame { regs := fun r => r = x } s t)

/-- R106: the add writes Vx modulo 256 and then VF with the carry of the operands before the instruction, also when VF is
Vx or Vy. -/
def Obligations.AddWithCarryToVF : Prop :=
  EncodedBy 0xF00F 0x8004 (fun w => .addReg (xOf w) (yOf w)) ∧
  ∀ (s : State) (x y : RegNo),
    ∃ t, exec (.addReg x y) s = .next t ∧ (x ≠ VF → t.reg x = regSet 8 (s.V x + s.V y)) ∧
      (x ≠ VF → t.V x = (s.V x + s.V y) % 256) ∧
      t.reg VF = regSet 8 (if 256 ≤ s.V x + s.V y then 1 else 0) ∧
      t.pc = regAdd s.pc 2 ∧ Frame { regs := fun r => r = x ∨ r = VF } s t

/-- R107, R109, R16: subtract and reverse subtract write Vx modulo 256 and then VF, which ends as the not-borrow of the
operands before the instruction, also when VF is Vx or Vy. That the not-borrow of `8xy7` is the one of `8xy5` with the
operands exchanged, and that operands are read before either write, the spec marks "derived" (R109, R16). -/
def Obligations.SubtractWithNotBorrowToVF : Prop :=
  EncodedBy 0xF00F 0x8005 (fun w => .subReg (xOf w) (yOf w)) ∧
  EncodedBy 0xF00F 0x8007 (fun w => .subnReg (xOf w) (yOf w)) ∧
  ∀ (s : State) (x y : RegNo),
    (∃ t, exec (.subReg x y) s = .next t ∧ (x ≠ VF → t.reg x = regSet 8 ((s.V x : Int) - s.V y)) ∧
      (x ≠ VF → t.V x = (s.V x + 256 - s.V y) % 256) ∧
      t.reg VF = regSet 8 (if s.V y ≤ s.V x then 1 else 0) ∧
      t.pc = regAdd s.pc 2 ∧ Frame { regs := fun r => r = x ∨ r = VF } s t) ∧
    (∃ t, exec (.subnReg x y) s = .next t ∧ (x ≠ VF → t.reg x = regSet 8 ((s.V y : Int) - s.V x)) ∧
      (x ≠ VF → t.V x = (s.V y + 256 - s.V x) % 256) ∧
      t.reg VF = regSet 8 (if s.V x ≤ s.V y then 1 else 0) ∧
      t.pc = regAdd s.pc 2 ∧ Frame { regs := fun r => r = x ∨ r = VF } s t)

/-- R107: `8xy4` followed by `8xy5` restores Vx when x, y and 0xF are three registers, and the final VF is the inverse of
the add's carry (the condition and the final VF are marked "derived" in R107). -/
def Obligations.AddThenSubtractRestoresVx : Prop :=
  ∀ (s : State) (x y : RegNo), x ≠ y → x ≠ VF → y ≠ VF →
    ∃ t u, exec (.addReg x y) s = .next t ∧ exec (.subReg x y) t = .next u ∧
      u.V x = s.V x ∧ u.V y = s.V y ∧ u.V VF = 1 - t.V VF ∧ u.pc.value = s.pc.value + 4

/-- R108, R110, R114: the shifts move the source that `SHIFT_SRC` names by one, write Vx, and then VF with the bit shifted
out; Vy is not written. That the flag of `8xy6` comes second is the spec's decision D6 (log 14). -/
def Obligations.ShiftsByOne : Prop :=
  EncodedBy 0xF00F 0x8006 (fun w => .shr (xOf w) (yOf w)) ∧
  EncodedBy 0xF00F 0x800E (fun w => .shl (xOf w) (yOf w)) ∧
  ∀ (s : State) (x y : RegNo) (src : Nat),
    src = (if s.params.shiftSrc = .vx then s.V x else s.V y) →
    (∃ t, exec (.shr x y) s = .next t ∧ (x ≠ VF → t.reg x = regSet 8 ((src / 2 : Nat) : Int)) ∧
      (x ≠ VF → t.V x = src / 2) ∧ t.reg VF = regSet 8 (if src.testBit 0 then 1 else 0) ∧
      t.pc = regAdd s.pc 2 ∧ Frame { regs := fun r => r = x ∨ r = VF } s t) ∧
    (∃ t, exec (.shl x y) s = .next t ∧ (x ≠ VF → t.reg x = regSet 8 ((2 * src : Nat) : Int)) ∧
      (x ≠ VF → t.V x = 2 * src % 256) ∧ t.reg VF = regSet 8 (if src.testBit 7 then 1 else 0) ∧
      t.pc = regAdd s.pc 2 ∧ Frame { regs := fun r => r = x ∨ r = VF } s t)

/-- R111: `Cxnn` puts a drawn byte, masked with nn, in Vx; every bit that is 0 in nn is 0 in the result, whatever the draw
(the free value `Config.randomByte`, log 8). -/
def Obligations.RandomByteIsMasked : Prop :=
  EncodedBy 0xF000 0xC000 (fun w => .rnd (xOf w) (nnOf w)) ∧
  ∀ (s : State) (x : RegNo) (nn : Byte),
    ∃ t, exec (.rnd x nn) s = .next t ∧ t.reg x = regSet 8 (Config.randomByte s.draws &&& nn).toNat ∧
      (∀ k, nn.getLsbD k = false → (t.reg x).value.getLsbD k = false) ∧ t.draws = s.draws + 1 ∧
      t.pc = regAdd s.pc 2 ∧ Frame { regs := fun r => r = x, draw := True } s t

/-! ### Control transfer -/

/-- R92, R98: `1nnn` puts nnn in PC, `Bnnn` puts V0 + nnn there, not reduced to 12 bits; neither changes anything else. -/
def Obligations.JumpsSetThePC : Prop :=
  EncodedBy 0xF000 0x1000 (fun w => .jp (nnnOf w)) ∧
  EncodedBy 0xF000 0xB000 (fun w => .jpV0 (nnnOf w)) ∧
  ∀ (s : State) (nnn : Addr12),
    (∃ t, exec (.jp nnn) s = .next t ∧ t.pc = regSet 16 nnn.toNat ∧ t.pc.value.toNat = nnn.toNat ∧ Frame {} s t) ∧
    (∃ t, exec (.jpV0 nnn) s = .next t ∧ t.pc = regSet 16 (s.V 0 + nnn.toNat) ∧
      t.pc.value.toNat = s.V 0 + nnn.toNat ∧ Frame {} s t)

/-- R93: `2nnn` stores pc0 + 2 at SP and SP + 1, more significant byte first, raises SP by 2 modulo 256 and jumps; no other
byte of memory changes, and there is no fault whatever SP holds. That pc0 + 2 is what is pushed, and in which byte order,
are the spec's decisions D3, D1, D2 (log 16). -/
def Obligations.CallPushesTheReturnAddress : Prop :=
  EncodedBy 0xF000 0x2000 (fun w => .call (nnnOf w)) ∧
  ∀ (s : State) (nnn : Addr12),
    ∃ t, exec (.call nnn) s = .next t ∧ t.pc = regSet 16 nnn.toNat ∧ t.sp = regAdd s.sp 2 ∧
      t.byteAt s.sp.value.toNat ++ t.byteAt (s.sp.value.toNat + 1) = s.pc.value + 2 ∧
      Frame { stack := True, bytes := fun a => a = s.sp.value.toNat ∨ a = s.sp.value.toNat + 1 } s t

/-- R91: `00EE` lowers SP by 2 modulo 256 and loads PC with the word at the new SP, with no advance; memory keeps the
stacked bytes, and there is no fault whatever SP holds. The source's property: directly after a call it resumes at the
instruction after the call with SP as before, for every SP, the wrapping ones included. -/
def Obligations.ReturnPopsIntoThePC : Prop :=
  EncodedBy 0xF00F 0x000E (fun _ => .ret) ∧
  (∀ s : State,
    ∃ t, exec .ret s = .next t ∧ t.sp = regAdd s.sp (-2) ∧
      t.pc = regSet 16 (s.byteAt t.sp.value.toNat ++ s.byteAt (t.sp.value.toNat + 1)).toNat ∧
      Frame { stack := True } s t) ∧
  (∀ (s : State) (nnn : Addr12),
    ∃ t u, exec (.call nnn) s = .next t ∧ exec .ret t = .next u ∧
      u.pc.value = s.pc.value + 2 ∧ u.sp.value = s.sp.value ∧
      Frame { stack := True, bytes := fun a => a = s.sp.value.toNat ∨ a = s.sp.value.toNat + 1 } s u)

/-- R94, R95, R96, R97: the register skips go to pc0 + 4 when their comparison holds and to pc0 + 2 otherwise, and change
nothing else. -/
def Obligations.SkipsOnRegisters : Prop :=
  EncodedBy 0xF000 0x3000 (fun w => .seByte (xOf w) (nnOf w)) ∧
  EncodedBy 0xF000 0x4000 (fun w => .sneByte (xOf w) (nnOf w)) ∧
  EncodedBy 0xF000 0x5000 (fun w => .seReg (xOf w) (yOf w)) ∧
  EncodedBy 0xF000 0x9000 (fun w => .sneReg (xOf w) (yOf w)) ∧
  ∀ (s : State) (x y : RegNo) (nn : Byte),
    (∃ t, exec (.seByte x nn) s = .next t ∧
      t.pc.value = (if s.V x = nn.toNat then s.pc.value + 4 else s.pc.value + 2) ∧ Frame {} s t) ∧
    (∃ t, exec (.sneByte x nn) s = .next t ∧
      t.pc.value = (if s.V x = nn.toNat then s.pc.value + 2 else s.pc.value + 4) ∧ Frame {} s t) ∧
    (∃ t, exec (.seReg x y) s = .next t ∧
      t.pc.value = (if s.V x = s.V y then s.pc.value + 4 else s.pc.value + 2) ∧ Frame {} s t) ∧
    (∃ t, exec (.sneReg x y) s = .next t ∧
      t.pc.value = (if s.V x = s.V y then s.pc.value + 2 else s.pc.value + 4) ∧ Frame {} s t)

/-- R140, R141, R154: the keypad skips look at the live level of the key whose code is the whole of Vx; a code above 15 is a
`KeyCodeRange` fault, whatever keys are down (the fault is the spec's decision D13, log 15). -/
def Obligations.SkipsOnKeys : Prop :=
  EncodedBy 0xF0FF 0xE09E (fun w => .skp (xOf w)) ∧
  EncodedBy 0xF0FF 0xE0A1 (fun w => .sknp (xOf w)) ∧
  ∀ (s : State) (x : RegNo),
    (s.V x ≤ 15 →
      (∃ t, exec (.skp x) s = .next t ∧
        t.pc.value = (if s.keys.getLsbD (s.V x) then s.pc.value + 4 else s.pc.value + 2) ∧ Frame {} s t) ∧
      (∃ t, exec (.sknp x) s = .next t ∧
        t.pc.value = (if s.keys.getLsbD (s.V x) then s.pc.value + 2 else s.pc.value + 4) ∧ Frame {} s t)) ∧
    (15 < s.V x →
      exec (.skp x) s = .fault (.keyCodeRange { pc0 := s.pc.value, opcode := encode (.skp x), value := s.V x }) ∧
      exec (.sknp x) s = .fault (.keyCodeRange { pc0 := s.pc.value, opcode := encode (.sknp x), value := s.V x }))

/-! ### Index register and memory -/

/-- R120, R121: `Annn` and `Fx1E` write I (modulo 65536), and nothing else: no flag, no fault. -/
def Obligations.IndexLoadAndAdd : Prop :=
  EncodedBy 0xF000 0xA000 (fun w => .ldI (nnnOf w)) ∧
  EncodedBy 0xF0FF 0xF01E (fun w => .addI (xOf w)) ∧
  ∀ (s : State) (x : RegNo) (nnn : Addr12),
    (∃ t, exec (.ldI nnn) s = .next t ∧ t.i = regSet 16 nnn.toNat ∧ t.i.value.toNat = nnn.toNat ∧
      t.pc = regAdd s.pc 2 ∧ Frame { index := True } s t) ∧
    (∃ t, exec (.addI x) s = .next t ∧ t.i = regAdd s.i (s.V x) ∧
      t.i.value.toNat = (s.i.value.toNat + s.V x) % 65536 ∧ t.pc = regAdd s.pc 2 ∧ Frame { index := True } s t)

/-- R122: `Fx29` puts 5 * Vx in I, makes no access and cannot fault; that the whole of Vx is used, above 15 too, is the
spec's decision D12 (log 15). -/
def Obligations.GlyphAddressIsFiveTimesVx : Prop :=
  EncodedBy 0xF0FF 0xF029 (fun w => .ldF (xOf w)) ∧
  ∀ (s : State) (x : RegNo),
    ∃ t, exec (.ldF x) s = .next t ∧ t.i = regSet 16 ((5 * s.V x : Nat) : Int) ∧ t.i.value.toNat = 5 * s.V x ∧
      t.pc = regAdd s.pc 2 ∧ Frame { index := True } s t

/-- R123: `Fx33` stores the hundreds, tens and ones of Vx at I, I + 1, I + 2 and changes nothing else; when I + 2 is from
4096 up it faults at max(I, 4096). The digit order is the spec's decision D25 (log 17). -/
def Obligations.DecimalDigitsAreStored : Prop :=
  EncodedBy 0xF0FF 0xF033 (fun w => .ldB (xOf w)) ∧
  ∀ (s : State) (x : RegNo),
    (s.i.value.toNat + 2 < 4096 →
      ∃ t, exec (.ldB x) s = .next t ∧
        (t.byteAt s.i.value.toNat).toNat = s.V x / 100 ∧
        (t.byteAt (s.i.value.toNat + 1)).toNat = s.V x / 10 % 10 ∧
        (t.byteAt (s.i.value.toNat + 2)).toNat = s.V x % 10 ∧
        t.pc = regAdd s.pc 2 ∧
        Frame { bytes := fun a => s.i.value.toNat ≤ a ∧ a ≤ s.i.value.toNat + 2 } s t) ∧
    (4096 ≤ s.i.value.toNat + 2 →
      exec (.ldB x) s = .fault (.addressRange
        { pc0 := s.pc.value, opcode := encode (.ldB x), value := max s.i.value.toNat 4096 }))

/-- R124: `Fx55` stores V0..Vx, Vx included, at I, I + 1, … and changes no register, I included; when I + x is from 4096
up it faults at max(I, 4096). -/
def Obligations.RegistersAreStored : Prop :=
  EncodedBy 0xF0FF 0xF055 (fun w => .storeRegs (xOf w)) ∧
  ∀ (s : State) (x : RegNo),
    (s.i.value.toNat + x.val < 4096 →
      ∃ t, exec (.storeRegs x) s = .next t ∧
        (∀ k : RegNo, k ≤ x → t.byteAt (s.i.value.toNat + k.val) = (s.reg k).value) ∧
        t.pc = regAdd s.pc 2 ∧
        Frame { bytes := fun a => s.i.value.toNat ≤ a ∧ a ≤ s.i.value.toNat + x.val } s t) ∧
    (4096 ≤ s.i.value.toNat + x.val →
      exec (.storeRegs x) s = .fault (.addressRange
        { pc0 := s.pc.value, opcode := encode (.storeRegs x), value := max s.i.value.toNat 4096 }))

/-- R125: `Fx65` loads V0..Vx from I, I + 1, …; memory, I and the registers above Vx are unchanged; when I + x is from 4096
up it faults at max(I, 4096). -/
def Obligations.RegistersAreLoaded : Prop :=
  EncodedBy 0xF0FF 0xF065 (fun w => .loadRegs (xOf w)) ∧
  ∀ (s : State) (x : RegNo),
    (s.i.value.toNat + x.val < 4096 →
      ∃ t, exec (.loadRegs x) s = .next t ∧
        (∀ k : RegNo, k ≤ x → t.reg k = regSet 8 (s.byteAt (s.i.value.toNat + k.val)).toNat) ∧
        (∀ k : RegNo, k ≤ x → (t.reg k).value = s.byteAt (s.i.value.toNat + k.val)) ∧
        t.pc = regAdd s.pc 2 ∧ Frame { regs := fun r => r ≤ x } s t) ∧
    (4096 ≤ s.i.value.toNat + x.val →
      exec (.loadRegs x) s = .fault (.addressRange
        { pc0 := s.pc.value, opcode := encode (.loadRegs x), value := max s.i.value.toNat 4096 }))

/-- R54: code that `Fx55` has just stored is what the very next step runs. -/
def Obligations.StoredCodeIsRunByTheNextStep : Prop :=
  ∀ (s t : State) (x k k' : RegNo) (rest : List HostEvent) (i : Instr),
    exec (.storeRegs x) s = .next t → k' ≤ x → k'.val = k.val + 1 →
    t.pc.value.toNat = s.i.value.toNat + k.val → StepComesNext t rest →
    decodeWord ((s.reg k).value ++ (s.reg k').value) = .ok i →
    step t = exec i { t with schedule := rest }

/-! ### Framebuffer -/

/-- R131: `00E0` clears all 2048 pixels and sets the redraw mark; VF and everything else are untouched
(that it sets the mark is the spec's decision D21, log 20). -/
def Obligations.ClearScreen : Prop :=
  EncodedBy 0xF00F 0x0000 (fun _ => .cls) ∧
  ∀ s : State,
    ∃ t, exec .cls s = .next t ∧ (∀ px py, t.pixel px py = false) ∧ t.fbDirty = true ∧
      t.pc = regAdd s.pc 2 ∧ Frame { screen := True } s t

/-- R132, R133: `Dxyn` flips exactly the pixels that a 1 bit of the sprite falls on, wrapping at the edges; VF is 1 iff one
of them was lit, else 0; Vx and Vy are taken before VF is reset (the spec's decision D7, log 14); with n = 0 nothing is read; when the sprite reaches
past the end of memory it faults at max(I, 4096) (the opcode in the record: log 24). -/
def Obligations.SpriteDrawFlipsCoveredPixels : Prop :=
  EncodedBy 0xF000 0xD000 (fun w => .drw (xOf w) (yOf w) (nOf w)) ∧
  ∀ (s : State) (x y : RegNo) (n : RowCount),
    ((n.val = 0 ∨ s.i.value.toNat + n.val ≤ 4096) →
      ∃ t, exec (.drw x y n) s = .next t ∧
        (∀ px py, SpriteCovers s (s.V x) (s.V y) n.val px py → t.pixel px py = !s.pixel px py) ∧
        (∀ px py, ¬ SpriteCovers s (s.V x) (s.V y) n.val px py → t.pixel px py = s.pixel px py) ∧
        ((∃ px py, SpriteCovers s (s.V x) (s.V y) n.val px py ∧ s.pixel px py = true) → t.reg VF = regSet 8 1) ∧
        ((¬ ∃ px py, SpriteCovers s (s.V x) (s.V y) n.val px py ∧ s.pixel px py = true) → t.reg VF = regSet 8 0) ∧
        t.fbDirty = true ∧ t.pc = regAdd s.pc 2 ∧ Frame { regs := fun r => r = VF, screen := True } s t) ∧
    (1 ≤ n.val → 4096 < s.i.value.toNat + n.val →
      exec (.drw x y n) s = .fault (.addressRange
        { pc0 := s.pc.value, opcode := encode (.drw x y n), value := max s.i.value.toNat 4096 }))

/-- R132: the source's property: drawing the same sprite at the same place twice restores the framebuffer, and the second
VF is 1 iff some 1 bit of the sprite fell on a pixel that was 0 before the first draw. -/
def Obligations.DrawingTwiceRestoresTheScreen : Prop :=
  ∀ (s : State) (x y : RegNo) (n : RowCount), x ≠ VF → y ≠ VF → (n.val = 0 ∨ s.i.value.toNat + n.val ≤ 4096) →
    ∃ t u, exec (.drw x y n) s = .next t ∧ exec (.drw x y n) t = .next u ∧ u.fb = s.fb ∧
      (u.V VF = 1 ↔ ∃ px py, SpriteCovers s (s.V x) (s.V y) n.val px py ∧ s.pixel px py = false)

/-! ### Keypad and timers -/

/-- R143, R86: `Fx0A` holds, changing nothing at all, while no key is down; else Vx receives the code of a key that is down
(which one, when several are down, is the host's choice: decision D19, logs 8 and 27). -/
def Obligations.WaitForKey : Prop :=
  EncodedBy 0xF0FF 0xF00A (fun w => .ldVxK (xOf w)) ∧
  ∀ (s : State) (x : RegNo),
    (s.keys = 0 → exec (.ldVxK x) s = .next s) ∧
    (s.keys ≠ 0 →
      ∃ (t : State) (k : Fin 16), exec (.ldVxK x) s = .next t ∧ s.keys.getLsbD k.val = true ∧
        t.reg x = regSet 8 k.val ∧ t.V x = k.val ∧ t.pc = regAdd s.pc 2 ∧
        Frame { regs := fun r => r = x, draw := True } s t)

/-- R142, R144, R145: `Fx07` does `V[x] <- DT`, `Fx15` does `DT <- V[x]`, `Fx18` does `ST <- V[x]`; each advances PC by 2 and
changes nothing else. -/
def Obligations.TimerRegisterTransfers : Prop :=
  EncodedBy 0xF0FF 0xF007 (fun w => .ldVxDt (xOf w)) ∧
  EncodedBy 0xF0FF 0xF015 (fun w => .ldDtVx (xOf w)) ∧
  EncodedBy 0xF0FF 0xF018 (fun w => .ldStVx (xOf w)) ∧
  ∀ (s : State) (x : RegNo),
    (∃ t, exec (.ldVxDt x) s = .next t ∧ t.reg x = regSet 8 s.dt.value.toNat ∧ (t.reg x).value = s.dt.value ∧
      t.pc = regAdd s.pc 2 ∧ Frame { regs := fun r => r = x } s t) ∧
    (∃ t, exec (.ldDtVx x) s = .next t ∧ t.dt = regSet 8 (s.V x) ∧ t.dt.value = (s.reg x).value ∧
      t.pc = regAdd s.pc 2 ∧ Frame { delay := True } s t) ∧
    (∃ t, exec (.ldStVx x) s = .next t ∧ t.st = regSet 8 (s.V x) ∧ t.st.value = (s.reg x).value ∧
      t.pc = regAdd s.pc 2 ∧ Frame { sound := True } s t)

/-- R146: a tick of a running machine lowers DT and ST by 1 each, floored at 0, touches no Register flag, and changes
nothing else, PC included; N ticks take a timer from v to max(0, v - N); a machine that does not run takes no tick. -/
def Obligations.TickLowersBothTimers : Prop :=
  (∀ (s : State) (rest : List HostEvent), s.status = .running → s.schedule = .tick :: rest →
    ∃ t, step s = .next t ∧
      t.dt.value.toNat = s.dt.value.toNat - 1 ∧ t.st.value.toNat = s.st.value.toNat - 1 ∧
      t.dt.overflowed = s.dt.overflowed ∧ t.dt.borrowed = s.dt.borrowed ∧
      t.st.overflowed = s.st.overflowed ∧ t.st.borrowed = s.st.borrowed ∧ t.pc = s.pc ∧
      Frame { delay := True, sound := True } { s with schedule := rest } t) ∧
  (∀ (n : Nat) (s : State) (rest : List HostEvent),
    s.status = .running → s.schedule = List.replicate n .tick ++ rest →
    ∃ t, stepN n s = .next t ∧
      t.dt.value.toNat = s.dt.value.toNat - n ∧ t.st.value.toNat = s.st.value.toNat - n ∧
      t.dt.overflowed = s.dt.overflowed ∧ t.dt.borrowed = s.dt.borrowed ∧
      t.st.overflowed = s.st.overflowed ∧ t.st.borrowed = s.st.borrowed ∧ t.pc = s.pc ∧ t.schedule = rest) ∧
  (∀ (s : State) (rest : List HostEvent), s.status ≠ .running → s.schedule = .tick :: rest → ∀ t, step s ≠ .next t)

/-! ### Host events -/

/-- R29, R30, R160: `Keys` changes the key levels only, `RedrawAck` clears the redraw mark only, `Quit` ends a running
machine and changes no register, memory or pixel. That `Keys` and `RedrawAck` take effect in every status, a faulted or
quit machine included, is the model's choice (log 21), and so are the key levels and the events to come as fields of the
state (logs 6, 7). -/
def Obligations.KeysRedrawAckAndQuitEvents : Prop :=
  ∀ (s : State) (rest : List HostEvent) (levels : BitVec 16),
    (s.schedule = .keys levels :: rest → step s = .next { s with schedule := rest, keys := levels }) ∧
    (s.schedule = .redrawAck :: rest → step s = .next { s with schedule := rest, fbDirty := false }) ∧
    (s.schedule = .quit :: rest → s.status = .running →
      step s = .next { s with schedule := rest, status := .quit })

/-- R175, R176, R26, R155: in any status, a reset with an image of at most 3584 bytes puts every piece of state at its reset
value, the image verbatim from 0x200; a longer image is a `LoadError`. The zeros of the registers, flags, pixels and the
redraw mark are the spec's decisions D8 and D9 (logs 4, 5). -/
def Obligations.ResetLoadsTheImage : Prop :=
  ∀ (s : State) (rom : List Byte) (rest : List HostEvent), s.schedule = .reset rom :: rest →
    (rom.length ≤ 3584 →
      ∃ t, step s = .next t ∧ t.status = .running ∧ t.params = s.params ∧
        (∀ x, t.reg x = { value := 0, overflowed := false, borrowed := false }) ∧
        t.i = { value := 0, overflowed := false, borrowed := false } ∧
        t.pc = { value := 0x200, overflowed := false, borrowed := false } ∧
        t.sp = { value := s.params.stackBase, overflowed := false, borrowed := false } ∧
        t.dt = { value := 0, overflowed := false, borrowed := false } ∧
        t.st = { value := 0, overflowed := false, borrowed := false } ∧
        (∀ px py, t.pixel px py = false) ∧ t.fbDirty = false ∧
        (∀ (k : Nat) (h : k < rom.length), t.byteAt (0x200 + k) = rom[k]) ∧
        (∀ (a : Nat) (h : a < 80), t.byteAt a = s.params.font[a]) ∧
        (∀ a, 80 ≤ a → a < 0x200 ∨ 0x200 + rom.length ≤ a → t.byteAt a = 0)) ∧
    (3584 < rom.length → step s = .fault (.loadError rom.length))

/-- R150, R160, R32: a faulted machine answers its fault to every `Step` and `Tick`, and a quit one has no further
`Step` or `Tick` (that the outcome is a refusal is the model's choice, log 21). -/
def Obligations.StoppedMachineStaysStopped : Prop :=
  ∀ (s : State) (rest : List HostEvent) (cause : Fault),
    (s.schedule = [] ∨ s.schedule = .step :: rest ∨ s.schedule = .tick :: rest) →
    step (latchFault cause s) = .fault cause ∧
    (s.status = .faulted cause → step s = .fault cause) ∧
    (s.status = .quit → step s = .refused .runEnded)

/-- R26, R177: the reset state, whatever the parameters are; `State.reset` is that state for the parameters of logs
1, 2 and 3, which are the model's choice; the zeros are the spec's decisions D8 and D9 (logs 4, 5). -/
def Obligations.ResetStateTable : Prop :=
  State.reset = State.initial defaultParams ∧
  ∀ p : Config.Params,
    (∀ x, (State.initial p).reg x = { value := 0, overflowed := false, borrowed := false }) ∧
    (State.initial p).i = { value := 0, overflowed := false, borrowed := false } ∧
    (State.initial p).pc = { value := 0x200, overflowed := false, borrowed := false } ∧
    (State.initial p).sp = { value := p.stackBase, overflowed := false, borrowed := false } ∧
    (State.initial p).dt = { value := 0, overflowed := false, borrowed := false } ∧
    (State.initial p).st = { value := 0, overflowed := false, borrowed := false } ∧
    (∀ (a : Nat) (h : a < 80), (State.initial p).byteAt a = p.font[a]) ∧
    (∀ a, 80 ≤ a → (State.initial p).byteAt a = 0) ∧
    (∀ px py, (State.initial p).pixel px py = false) ∧ (State.initial p).fbDirty = false ∧
    (State.initial p).status = .running

/-! ### The whole machine -/

/-- The invariant holds at reset, for every admissible choice of the parameters. -/
def Obligations.InvariantHoldsAtReset : Prop :=
  Inv State.reset ∧ ∀ p : Config.Params, p.wf = true → Inv (State.initial p)

/-- Every step, whatever its event, keeps the invariant: admissible parameters, canonical memory inside the 4096 bytes,
SP even (R19), at most one flag of a register set (R12). -/
def Obligations.StepKeepsTheInvariant : Prop :=
  ∀ s t : State, Inv s → step s = .next t → Inv t

/-- R15, R14: a general register changes only by an instruction that names it as its destination, by a register load, or,
for VF, by the six instructions with a flag. -/
def Obligations.RegistersChangeOnlyByTheirWriters : Prop :=
  ∀ (i : Instr) (s t : State) (r : RegNo), exec i s = .next t → ¬ writesReg i r → t.reg r = s.reg r

/-- R47, R44: the only instructions that store to memory are `2nnn`, `Fx33` and `Fx55`, each to the bytes of the table;
every other byte reads as before. -/
def Obligations.MemoryChangesOnlyByStores : Prop :=
  ∀ (i : Instr) (s t : State) (a : Nat), exec i s = .next t → ¬ storesTo s i a → t.byteAt a = s.byteAt a

/-- R18, R19, R20, R21: I, SP, DT and ST change only by the instructions that write them. -/
def Obligations.PointersAndTimersChangeOnlyByTheirWriters : Prop :=
  ∀ (i : Instr) (s t : State), exec i s = .next t →
    ((∀ nnn, i ≠ .ldI nnn) → (∀ x, i ≠ .addI x) → (∀ x, i ≠ .ldF x) → t.i = s.i) ∧
    ((∀ nnn, i ≠ .call nnn) → i ≠ .ret → t.sp = s.sp) ∧
    ((∃ nnn, i = .call nnn) → t.sp.value = s.sp.value + 2) ∧ (i = .ret → t.sp.value = s.sp.value - 2) ∧
    ((∀ x, i ≠ .ldDtVx x) → t.dt = s.dt) ∧ ((∀ x, i ≠ .ldStVx x) → t.st = s.st)

/-- R25, R29: only `00E0` and `Dxyn` touch the framebuffer and the redraw mark, and both leave the mark set (for
`00E0` the spec's decision D21, log 20). -/
def Obligations.ScreenChangesOnlyByClearAndDraw : Prop :=
  ∀ (i : Instr) (s t : State), exec i s = .next t →
    (i ≠ .cls → (∀ x y n, i ≠ .drw x y n) → t.fb = s.fb ∧ t.fbDirty = s.fbDirty) ∧
    ((i = .cls ∨ ∃ x y n, i = .drw x y n) → t.fbDirty = true)

/-- R22, R30, R163: no instruction changes the parameters, the key levels, the schedule or the run status. -/
def Obligations.InstructionsLeaveParametersAndInputs : Prop :=
  ∀ (i : Instr) (s t : State), exec i s = .next t →
    t.params = s.params ∧ t.keys = s.keys ∧ t.schedule = s.schedule ∧ t.status = s.status

/-- R28: the Register flags are not observable across instructions: a machine without them steps alike. -/
def Obligations.RegisterFlagsAreUnobservable : Prop := Unobservable eraseFlags

/-- R29: no instruction reads the redraw mark; it has no effect on any other state. -/
def Obligations.RedrawMarkIsUnobservable : Prop := Unobservable eraseRedraw

/-- R21: no instruction reads ST; it has no effect on any other state. -/
def Obligations.SoundTimerIsUnobservable : Prop := Unobservable eraseSound
end

