-- ==== Sys2Proof/Laws/State.lean ====
section
/-! SUPPORT. One lemma per field (and per accessor) per update of State, so that no proof unfolds a record update. -/

namespace Sys2Proof.Machine

/-! #### setV -/

@[simp] theorem State.setV_i (s : State) (x : RegNo) (v : Int) : (s.setV x v).i = s.i := rfl
@[simp] theorem State.setV_pc (s : State) (x : RegNo) (v : Int) : (s.setV x v).pc = s.pc := rfl
@[simp] theorem State.setV_sp (s : State) (x : RegNo) (v : Int) : (s.setV x v).sp = s.sp := rfl
@[simp] theorem State.setV_dt (s : State) (x : RegNo) (v : Int) : (s.setV x v).dt = s.dt := rfl
@[simp] theorem State.setV_st (s : State) (x : RegNo) (v : Int) : (s.setV x v).st = s.st := rfl
@[simp] theorem State.setV_mem (s : State) (x : RegNo) (v : Int) : (s.setV x v).mem = s.mem := rfl
@[simp] theorem State.setV_fb (s : State) (x : RegNo) (v : Int) : (s.setV x v).fb = s.fb := rfl
@[simp] theorem State.setV_fbDirty (s : State) (x : RegNo) (v : Int) : (s.setV x v).fbDirty = s.fbDirty := rfl
@[simp] theorem State.setV_status (s : State) (x : RegNo) (v : Int) : (s.setV x v).status = s.status := rfl
@[simp] theorem State.setV_params (s : State) (x : RegNo) (v : Int) : (s.setV x v).params = s.params := rfl
@[simp] theorem State.setV_keys (s : State) (x : RegNo) (v : Int) : (s.setV x v).keys = s.keys := rfl
@[simp] theorem State.setV_schedule (s : State) (x : RegNo) (v : Int) : (s.setV x v).schedule = s.schedule := rfl
@[simp] theorem State.setV_draws (s : State) (x : RegNo) (v : Int) : (s.setV x v).draws = s.draws := rfl
@[simp] theorem State.setV_byteAt (s : State) (x : RegNo) (v : Int) (a : Nat) : (s.setV x v).byteAt a = s.byteAt a := rfl
@[simp] theorem State.setV_pixel (s : State) (x : RegNo) (v : Int) (px : Fin 64) (py : Fin 32) : (s.setV x v).pixel px py = s.pixel px py := rfl
@[simp] theorem State.setV_keyDown (s : State) (x : RegNo) (v : Int) (k : Nat) : (s.setV x v).keyDown k = s.keyDown k := rfl
@[simp] theorem State.setV_downKeys (s : State) (x : RegNo) (v : Int) : (s.setV x v).downKeys = s.downKeys := rfl
@[simp] theorem State.setV_ea (s : State) (x : RegNo) (v : Int) (k : Nat) : (s.setV x v).ea k = s.ea k := rfl

/-! #### setI -/

@[simp] theorem State.setI_v (s : State) (v : Int) : (s.setI v).v = s.v := rfl
@[simp] theorem State.setI_i (s : State) (v : Int) : (s.setI v).i = regSet 16 v := rfl
@[simp] theorem State.setI_pc (s : State) (v : Int) : (s.setI v).pc = s.pc := rfl
@[simp] theorem State.setI_sp (s : State) (v : Int) : (s.setI v).sp = s.sp := rfl
@[simp] theorem State.setI_dt (s : State) (v : Int) : (s.setI v).dt = s.dt := rfl
@[simp] theorem State.setI_st (s : State) (v : Int) : (s.setI v).st = s.st := rfl
@[simp] theorem State.setI_mem (s : State) (v : Int) : (s.setI v).mem = s.mem := rfl
@[simp] theorem State.setI_fb (s : State) (v : Int) : (s.setI v).fb = s.fb := rfl
@[simp] theorem State.setI_fbDirty (s : State) (v : Int) : (s.setI v).fbDirty = s.fbDirty := rfl
@[simp] theorem State.setI_status (s : State) (v : Int) : (s.setI v).status = s.status := rfl
@[simp] theorem State.setI_params (s : State) (v : Int) : (s.setI v).params = s.params := rfl
@[simp] theorem State.setI_keys (s : State) (v : Int) : (s.setI v).keys = s.keys := rfl
@[simp] theorem State.setI_schedule (s : State) (v : Int) : (s.setI v).schedule = s.schedule := rfl
@[simp] theorem State.setI_draws (s : State) (v : Int) : (s.setI v).draws = s.draws := rfl
@[simp] theorem State.setI_reg (s : State) (v : Int) (y : RegNo) : (s.setI v).reg y = s.reg y := rfl
@[simp] theorem State.setI_V (s : State) (v : Int) (y : RegNo) : (s.setI v).V y = s.V y := rfl
@[simp] theorem State.setI_bits (s : State) (v : Int) (y : RegNo) : (s.setI v).bits y = s.bits y := rfl
@[simp] theorem State.setI_byteAt (s : State) (v : Int) (a : Nat) : (s.setI v).byteAt a = s.byteAt a := rfl
@[simp] theorem State.setI_pixel (s : State) (v : Int) (px : Fin 64) (py : Fin 32) : (s.setI v).pixel px py = s.pixel px py := rfl
@[simp] theorem State.setI_keyDown (s : State) (v : Int) (k : Nat) : (s.setI v).keyDown k = s.keyDown k := rfl
@[simp] theorem State.setI_downKeys (s : State) (v : Int) : (s.setI v).downKeys = s.downKeys := rfl
@[simp] theorem State.setI_shiftSource (s : State) (v : Int) (y z : RegNo) : (s.setI v).shiftSource y z = s.shiftSource y z := rfl

/-! #### setPC -/

@[simp] theorem State.setPC_v (s : State) (v : Int) : (s.setPC v).v = s.v := rfl
@[simp] theorem State.setPC_i (s : State) (v : Int) : (s.setPC v).i = s.i := rfl
@[simp] theorem State.setPC_pc (s : State) (v : Int) : (s.setPC v).pc = regSet 16 v := rfl
@[simp] theorem State.setPC_sp (s : State) (v : Int) : (s.setPC v).sp = s.sp := rfl
@[simp] theorem State.setPC_dt (s : State) (v : Int) : (s.setPC v).dt = s.dt := rfl
@[simp] theorem State.setPC_st (s : State) (v : Int) : (s.setPC v).st = s.st := rfl
@[simp] theorem State.setPC_mem (s : State) (v : Int) : (s.setPC v).mem = s.mem := rfl
@[simp] theorem State.setPC_fb (s : State) (v : Int) : (s.setPC v).fb = s.fb := rfl
@[simp] theorem State.setPC_fbDirty (s : State) (v : Int) : (s.setPC v).fbDirty = s.fbDirty := rfl
@[simp] theorem State.setPC_status (s : State) (v : Int) : (s.setPC v).status = s.status := rfl
@[simp] theorem State.setPC_params (s : State) (v : Int) : (s.setPC v).params = s.params := rfl
@[simp] theorem State.setPC_keys (s : State) (v : Int) : (s.setPC v).keys = s.keys := rfl
@[simp] theorem State.setPC_schedule (s : State) (v : Int) : (s.setPC v).schedule = s.schedule := rfl
@[simp] theorem State.setPC_draws (s : State) (v : Int) : (s.setPC v).draws = s.draws := rfl
@[simp] theorem State.setPC_reg (s : State) (v : Int) (y : RegNo) : (s.setPC v).reg y = s.reg y := rfl
@[simp] theorem State.setPC_V (s : State) (v : Int) (y : RegNo) : (s.setPC v).V y = s.V y := rfl
@[simp] theorem State.setPC_bits (s : State) (v : Int) (y : RegNo) : (s.setPC v).bits y = s.bits y := rfl
@[simp] theorem State.setPC_byteAt (s : State) (v : Int) (a : Nat) : (s.setPC v).byteAt a = s.byteAt a := rfl
@[simp] theorem State.setPC_pixel (s : State) (v : Int) (px : Fin 64) (py : Fin 32) : (s.setPC v).pixel px py = s.pixel px py := rfl
@[simp] theorem State.setPC_keyDown (s : State) (v : Int) (k : Nat) : (s.setPC v).keyDown k = s.keyDown k := rfl
@[simp] theorem State.setPC_downKeys (s : State) (v : Int) : (s.setPC v).downKeys = s.downKeys := rfl
@[simp] theorem State.setPC_ea (s : State) (v : Int) (k : Nat) : (s.setPC v).ea k = s.ea k := rfl
@[simp] theorem State.setPC_shiftSource (s : State) (v : Int) (y z : RegNo) : (s.setPC v).shiftSource y z = s.shiftSource y z := rfl

/-! #### setSP -/

@[simp] theorem State.setSP_v (s : State) (v : Int) : (s.setSP v).v = s.v := rfl
@[simp] theorem State.setSP_i (s : State) (v : Int) : (s.setSP v).i = s.i := rfl
@[simp] theorem State.setSP_pc (s : State) (v : Int) : (s.setSP v).pc = s.pc := rfl
@[simp] theorem State.setSP_sp (s : State) (v : Int) : (s.setSP v).sp = regSet 8 v := rfl
@[simp] theorem State.setSP_dt (s : State) (v : Int) : (s.setSP v).dt = s.dt := rfl
@[simp] theorem State.setSP_st (s : State) (v : Int) : (s.setSP v).st = s.st := rfl
@[simp] theorem State.setSP_mem (s : State) (v : Int) : (s.setSP v).mem = s.mem := rfl
@[simp] theorem State.setSP_fb (s : State) (v : Int) : (s.setSP v).fb = s.fb := rfl
@[simp] theorem State.setSP_fbDirty (s : State) (v : Int) : (s.setSP v).fbDirty = s.fbDirty := rfl
@[simp] theorem State.setSP_status (s : State) (v : Int) : (s.setSP v).status = s.status := rfl
@[simp] theorem State.setSP_params (s : State) (v : Int) : (s.setSP v).params = s.params := rfl
@[simp] theorem State.setSP_keys (s : State) (v : Int) : (s.setSP v).keys = s.keys := rfl
@[simp] theorem State.setSP_schedule (s : State) (v : Int) : (s.setSP v).schedule = s.schedule := rfl
@[simp] theorem State.setSP_draws (s : State) (v : Int) : (s.setSP v).draws = s.draws := rfl
@[simp] theorem State.setSP_reg (s : State) (v : Int) (y : RegNo) : (s.setSP v).reg y = s.reg y := rfl
@[simp] theorem State.setSP_V (s : State) (v : Int) (y : RegNo) : (s.setSP v).V y = s.V y := rfl
@[simp] theorem State.setSP_bits (s : State) (v : Int) (y : RegNo) : (s.setSP v).bits y = s.bits y := rfl
@[simp] theorem State.setSP_byteAt (s : State) (v : Int) (a : Nat) : (s.setSP v).byteAt a = s.byteAt a := rfl
@[simp] theorem State.setSP_pixel (s : State) (v : Int) (px : Fin 64) (py : Fin 32) : (s.setSP v).pixel px py = s.pixel px py := rfl
@[simp] theorem State.setSP_keyDown (s : State) (v : Int) (k : Nat) : (s.setSP v).keyDown k = s.keyDown k := rfl
@[simp] theorem State.setSP_downKeys (s : State) (v : Int) : (s.setSP v).downKeys = s.downKeys := rfl
@[simp] theorem State.setSP_ea (s : State) (v : Int) (k : Nat) : (s.setSP v).ea k = s.ea k := rfl
@[simp] theorem State.setSP_shiftSource (s : State) (v : Int) (y z : RegNo) : (s.setSP v).shiftSource y z = s.shiftSource y z := rfl

/-! #### setDT -/

@[simp] theorem State.setDT_v (s : State) (v : Int) : (s.setDT v).v = s.v := rfl
@[simp] theorem State.setDT_i (s : State) (v : Int) : (s.setDT v).i = s.i := rfl
@[simp] theorem State.setDT_pc (s : State) (v : Int) : (s.setDT v).pc = s.pc := rfl
@[simp] theorem State.setDT_sp (s : State) (v : Int) : (s.setDT v).sp = s.sp := rfl
@[simp] theorem State.setDT_dt (s : State) (v : Int) : (s.setDT v).dt = regSet 8 v := rfl
@[simp] theorem State.setDT_st (s : State) (v : Int) : (s.setDT v).st = s.st := rfl
@[simp] theorem State.setDT_mem (s : State) (v : Int) : (s.setDT v).mem = s.mem := rfl
@[simp] theorem State.setDT_fb (s : State) (v : Int) : (s.setDT v).fb = s.fb := rfl
@[simp] theorem State.setDT_fbDirty (s : State) (v : Int) : (s.setDT v).fbDirty = s.fbDirty := rfl
@[simp] theorem State.setDT_status (s : State) (v : Int) : (s.setDT v).status = s.status := rfl
@[simp] theorem State.setDT_params (s : State) (v : Int) : (s.setDT v).params = s.params := rfl
@[simp] theorem State.setDT_keys (s : State) (v : Int) : (s.setDT v).keys = s.keys := rfl
@[simp] theorem State.setDT_schedule (s : State) (v : Int) : (s.setDT v).schedule = s.schedule := rfl
@[simp] theorem State.setDT_draws (s : State) (v : Int) : (s.setDT v).draws = s.draws := rfl
@[simp] theorem State.setDT_reg (s : State) (v : Int) (y : RegNo) : (s.setDT v).reg y = s.reg y := rfl
@[simp] theorem State.setDT_V (s : State) (v : Int) (y : RegNo) : (s.setDT v).V y = s.V y := rfl
@[simp] theorem State.setDT_bits (s : State) (v : Int) (y : RegNo) : (s.setDT v).bits y = s.bits y := rfl
@[simp] theorem State.setDT_byteAt (s : State) (v : Int) (a : Nat) : (s.setDT v).byteAt a = s.byteAt a := rfl
@[simp] theorem State.setDT_pixel (s : State) (v : Int) (px : Fin 64) (py : Fin 32) : (s.setDT v).pixel px py = s.pixel px py := rfl
@[simp] theorem State.setDT_keyDown (s : State) (v : Int) (k : Nat) : (s.setDT v).keyDown k = s.keyDown k := rfl
@[simp] theorem State.setDT_downKeys (s : State) (v : Int) : (s.setDT v).downKeys = s.downKeys := rfl
@[simp] theorem State.setDT_ea (s : State) (v : Int) (k : Nat) : (s.setDT v).ea k = s.ea k := rfl
@[simp] theorem State.setDT_shiftSource (s : State) (v : Int) (y z : RegNo) : (s.setDT v).shiftSource y z = s.shiftSource y z := rfl

/-! #### setST -/

@[simp] theorem State.setST_v (s : State) (v : Int) : (s.setST v).v = s.v := rfl
@[simp] theorem State.setST_i (s : State) (v : Int) : (s.setST v).i = s.i := rfl
@[simp] theorem State.setST_pc (s : State) (v : Int) : (s.setST v).pc = s.pc := rfl
@[simp] theorem State.setST_sp (s : State) (v : Int) : (s.setST v).sp = s.sp := rfl
@[simp] theorem State.setST_dt (s : State) (v : Int) : (s.setST v).dt = s.dt := rfl
@[simp] theorem State.setST_st (s : State) (v : Int) : (s.setST v).st = regSet 8 v := rfl
@[simp] theorem State.setST_mem (s : State) (v : Int) : (s.setST v).mem = s.mem := rfl
@[simp] theorem State.setST_fb (s : State) (v : Int) : (s.setST v).fb = s.fb := rfl
@[simp] theorem State.setST_fbDirty (s : State) (v : Int) : (s.setST v).fbDirty = s.fbDirty := rfl
@[simp] theorem State.setST_status (s : State) (v : Int) : (s.setST v).status = s.status := rfl
@[simp] theorem State.setST_params (s : State) (v : Int) : (s.setST v).params = s.params := rfl
@[simp] theorem State.setST_keys (s : State) (v : Int) : (s.setST v).keys = s.keys := rfl
@[simp] theorem State.setST_schedule (s : State) (v : Int) : (s.setST v).schedule = s.schedule := rfl
@[simp] theorem State.setST_draws (s : State) (v : Int) : (s.setST v).draws = s.draws := rfl
@[simp] theorem State.setST_reg (s : State) (v : Int) (y : RegNo) : (s.setST v).reg y = s.reg y := rfl
@[simp] theorem State.setST_V (s : State) (v : Int) (y : RegNo) : (s.setST v).V y = s.V y := rfl
@[simp] theorem State.setST_bits (s : State) (v : Int) (y : RegNo) : (s.setST v).bits y = s.bits y := rfl
@[simp] theorem State.setST_byteAt (s : State) (v : Int) (a : Nat) : (s.setST v).byteAt a = s.byteAt a := rfl
@[simp] theorem State.setST_pixel (s : State) (v : Int) (px : Fin 64) (py : Fin 32) : (s.setST v).pixel px py = s.pixel px py := rfl
@[simp] theorem State.setST_keyDown (s : State) (v : Int) (k : Nat) : (s.setST v).keyDown k = s.keyDown k := rfl
@[simp] theorem State.setST_downKeys (s : State) (v : Int) : (s.setST v).downKeys = s.downKeys := rfl
@[simp] theorem State.setST_ea (s : State) (v : Int) (k : Nat) : (s.setST v).ea k = s.ea k := rfl
@[simp] theorem State.setST_shiftSource (s : State) (v : Int) (y z : RegNo) : (s.setST v).shiftSource y z = s.shiftSource y z := rfl

/-! #### setScreen -/

@[simp] theorem State.setScreen_v (s : State) (f : Framebuffer) : (s.setScreen f).v = s.v := rfl
@[simp] theorem State.setScreen_i (s : State) (f : Framebuffer) : (s.setScreen f).i = s.i := rfl
@[simp] theorem State.setScreen_pc (s : State) (f : Framebuffer) : (s.setScreen f).pc = s.pc := rfl
@[simp] theorem State.setScreen_sp (s : State) (f : Framebuffer) : (s.setScreen f).sp = s.sp := rfl
@[simp] theorem State.setScreen_dt (s : State) (f : Framebuffer) : (s.setScreen f).dt = s.dt := rfl
@[simp] theorem State.setScreen_st (s : State) (f : Framebuffer) : (s.setScreen f).st = s.st := rfl
@[simp] theorem State.setScreen_mem (s : State) (f : Framebuffer) : (s.setScreen f).mem = s.mem := rfl
@[simp] theorem State.setScreen_fb (s : State) (f : Framebuffer) : (s.setScreen f).fb = f := rfl
@[simp] theorem State.setScreen_fbDirty (s : State) (f : Framebuffer) : (s.setScreen f).fbDirty = true := rfl
@[simp] theorem State.setScreen_status (s : State) (f : Framebuffer) : (s.setScreen f).status = s.status := rfl
@[simp] theorem State.setScreen_params (s : State) (f : Framebuffer) : (s.setScreen f).params = s.params := rfl
@[simp] theorem State.setScreen_keys (s : State) (f : Framebuffer) : (s.setScreen f).keys = s.keys := rfl
@[simp] theorem State.setScreen_schedule (s : State) (f : Framebuffer) : (s.setScreen f).schedule = s.schedule := rfl
@[simp] theorem State.setScreen_draws (s : State) (f : Framebuffer) : (s.setScreen f).draws = s.draws := rfl
@[simp] theorem State.setScreen_reg (s : State) (f : Framebuffer) (y : RegNo) : (s.setScreen f).reg y = s.reg y := rfl
@[simp] theorem State.setScreen_V (s : State) (f : Framebuffer) (y : RegNo) : (s.setScreen f).V y = s.V y := rfl
@[simp] theorem State.setScreen_bits (s : State) (f : Framebuffer) (y : RegNo) : (s.setScreen f).bits y = s.bits y := rfl
@[simp] theorem State.setScreen_byteAt (s : State) (f : Framebuffer) (a : Nat) : (s.setScreen f).byteAt a = s.byteAt a := rfl
@[simp] theorem State.setScreen_keyDown (s : State) (f : Framebuffer) (k : Nat) : (s.setScreen f).keyDown k = s.keyDown k := rfl
@[simp] theorem State.setScreen_downKeys (s : State) (f : Framebuffer) : (s.setScreen f).downKeys = s.downKeys := rfl
@[simp] theorem State.setScreen_ea (s : State) (f : Framebuffer) (k : Nat) : (s.setScreen f).ea k = s.ea k := rfl
@[simp] theorem State.setScreen_shiftSource (s : State) (f : Framebuffer) (y z : RegNo) : (s.setScreen f).shiftSource y z = s.shiftSource y z := rfl

/-! #### nextDraw -/

@[simp] theorem State.nextDraw_v (s : State) : s.nextDraw.v = s.v := rfl
@[simp] theorem State.nextDraw_i (s : State) : s.nextDraw.i = s.i := rfl
@[simp] theorem State.nextDraw_pc (s : State) : s.nextDraw.pc = s.pc := rfl
@[simp] theorem State.nextDraw_sp (s : State) : s.nextDraw.sp = s.sp := rfl
@[simp] theorem State.nextDraw_dt (s : State) : s.nextDraw.dt = s.dt := rfl
@[simp] theorem State.nextDraw_st (s : State) : s.nextDraw.st = s.st := rfl
@[simp] theorem State.nextDraw_mem (s : State) : s.nextDraw.mem = s.mem := rfl
@[simp] theorem State.nextDraw_fb (s : State) : s.nextDraw.fb = s.fb := rfl
@[simp] theorem State.nextDraw_fbDirty (s : State) : s.nextDraw.fbDirty = s.fbDirty := rfl
@[simp] theorem State.nextDraw_status (s : State) : s.nextDraw.status = s.status := rfl
@[simp] theorem State.nextDraw_params (s : State) : s.nextDraw.params = s.params := rfl
@[simp] theorem State.nextDraw_keys (s : State) : s.nextDraw.keys = s.keys := rfl
@[simp] theorem State.nextDraw_schedule (s : State) : s.nextDraw.schedule = s.schedule := rfl
@[simp] theorem State.nextDraw_draws (s : State) : s.nextDraw.draws = s.draws + 1 := rfl
@[simp] theorem State.nextDraw_reg (s : State) (y : RegNo) : s.nextDraw.reg y = s.reg y := rfl
@[simp] theorem State.nextDraw_V (s : State) (y : RegNo) : s.nextDraw.V y = s.V y := rfl
@[simp] theorem State.nextDraw_bits (s : State) (y : RegNo) : s.nextDraw.bits y = s.bits y := rfl
@[simp] theorem State.nextDraw_byteAt (s : State) (a : Nat) : s.nextDraw.byteAt a = s.byteAt a := rfl
@[simp] theorem State.nextDraw_pixel (s : State) (px : Fin 64) (py : Fin 32) : s.nextDraw.pixel px py = s.pixel px py := rfl
@[simp] theorem State.nextDraw_keyDown (s : State) (k : Nat) : s.nextDraw.keyDown k = s.keyDown k := rfl
@[simp] theorem State.nextDraw_downKeys (s : State) : s.nextDraw.downKeys = s.downKeys := rfl
@[simp] theorem State.nextDraw_ea (s : State) (k : Nat) : s.nextDraw.ea k = s.ea k := rfl
@[simp] theorem State.nextDraw_shiftSource (s : State) (y z : RegNo) : s.nextDraw.shiftSource y z = s.shiftSource y z := rfl

/-! #### advance -/

@[simp] theorem State.advance_v (s : State) : s.advance.v = s.v := rfl
@[simp] theorem State.advance_i (s : State) : s.advance.i = s.i := rfl
@[simp] theorem State.advance_pc (s : State) : s.advance.pc = regSet 16 (s.pc.value.toNat + 2) := rfl
@[simp] theorem State.advance_sp (s : State) : s.advance.sp = s.sp := rfl
@[simp] theorem State.advance_dt (s : State) : s.advance.dt = s.dt := rfl
@[simp] theorem State.advance_st (s : State) : s.advance.st = s.st := rfl
@[simp] theorem State.advance_mem (s : State) : s.advance.mem = s.mem := rfl
@[simp] theorem State.advance_fb (s : State) : s.advance.fb = s.fb := rfl
@[simp] theorem State.advance_fbDirty (s : State) : s.advance.fbDirty = s.fbDirty := rfl
@[simp] theorem State.advance_status (s : State) : s.advance.status = s.status := rfl
@[simp] theorem State.advance_params (s : State) : s.advance.params = s.params := rfl
@[simp] theorem State.advance_keys (s : State) : s.advance.keys = s.keys := rfl
@[simp] theorem State.advance_schedule (s : State) : s.advance.schedule = s.schedule := rfl
@[simp] theorem State.advance_draws (s : State) : s.advance.draws = s.draws := rfl
@[simp] theorem State.advance_reg (s : State) (y : RegNo) : s.advance.reg y = s.reg y := rfl
@[simp] theorem State.advance_V (s : State) (y : RegNo) : s.advance.V y = s.V y := rfl
@[simp] theorem State.advance_bits (s : State) (y : RegNo) : s.advance.bits y = s.bits y := rfl
@[simp] theorem State.advance_byteAt (s : State) (a : Nat) : s.advance.byteAt a = s.byteAt a := rfl
@[simp] theorem State.advance_pixel (s : State) (px : Fin 64) (py : Fin 32) : s.advance.pixel px py = s.pixel px py := rfl
@[simp] theorem State.advance_keyDown (s : State) (k : Nat) : s.advance.keyDown k = s.keyDown k := rfl
@[simp] theorem State.advance_downKeys (s : State) : s.advance.downKeys = s.downKeys := rfl
@[simp] theorem State.advance_ea (s : State) (k : Nat) : s.advance.ea k = s.ea k := rfl
@[simp] theorem State.advance_shiftSource (s : State) (y z : RegNo) : s.advance.shiftSource y z = s.shiftSource y z := rfl

/-! #### skipIf -/

@[simp] theorem State.skipIf_v (s : State) (c : Bool) : (s.skipIf c).v = s.v := by cases c <;> rfl
@[simp] theorem State.skipIf_i (s : State) (c : Bool) : (s.skipIf c).i = s.i := by cases c <;> rfl
@[simp] theorem State.skipIf_pc (s : State) (c : Bool) : (s.skipIf c).pc = if c then regSet 16 (s.pc.value.toNat + 2) else s.pc := by cases c <;> rfl
@[simp] theorem State.skipIf_sp (s : State) (c : Bool) : (s.skipIf c).sp = s.sp := by cases c <;> rfl
@[simp] theorem State.skipIf_dt (s : State) (c : Bool) : (s.skipIf c).dt = s.dt := by cases c <;> rfl
@[simp] theorem State.skipIf_st (s : State) (c : Bool) : (s.skipIf c).st = s.st := by cases c <;> rfl
@[simp] theorem State.skipIf_mem (s : State) (c : Bool) : (s.skipIf c).mem = s.mem := by cases c <;> rfl
@[simp] theorem State.skipIf_fb (s : State) (c : Bool) : (s.skipIf c).fb = s.fb := by cases c <;> rfl
@[simp] theorem State.skipIf_fbDirty (s : State) (c : Bool) : (s.skipIf c).fbDirty = s.fbDirty := by cases c <;> rfl
@[simp] theorem State.skipIf_status (s : State) (c : Bool) : (s.skipIf c).status = s.status := by cases c <;> rfl
@[simp] theorem State.skipIf_params (s : State) (c : Bool) : (s.skipIf c).params = s.params := by cases c <;> rfl
@[simp] theorem State.skipIf_keys (s : State) (c : Bool) : (s.skipIf c).keys = s.keys := by cases c <;> rfl
@[simp] theorem State.skipIf_schedule (s : State) (c : Bool) : (s.skipIf c).schedule = s.schedule := by cases c <;> rfl
@[simp] theorem State.skipIf_draws (s : State) (c : Bool) : (s.skipIf c).draws = s.draws := by cases c <;> rfl
@[simp] theorem State.skipIf_reg (s : State) (c : Bool) (y : RegNo) : (s.skipIf c).reg y = s.reg y := by cases c <;> rfl
@[simp] theorem State.skipIf_V (s : State) (c : Bool) (y : RegNo) : (s.skipIf c).V y = s.V y := by cases c <;> rfl
@[simp] theorem State.skipIf_bits (s : State) (c : Bool) (y : RegNo) : (s.skipIf c).bits y = s.bits y := by cases c <;> rfl
@[simp] theorem State.skipIf_byteAt (s : State) (c : Bool) (a : Nat) : (s.skipIf c).byteAt a = s.byteAt a := by cases c <;> rfl
@[simp] theorem State.skipIf_pixel (s : State) (c : Bool) (px : Fin 64) (py : Fin 32) : (s.skipIf c).pixel px py = s.pixel px py := by cases c <;> rfl
@[simp] theorem State.skipIf_keyDown (s : State) (c : Bool) (k : Nat) : (s.skipIf c).keyDown k = s.keyDown k := by cases c <;> rfl
@[simp] theorem State.skipIf_downKeys (s : State) (c : Bool) : (s.skipIf c).downKeys = s.downKeys := by cases c <;> rfl
@[simp] theorem State.skipIf_ea (s : State) (c : Bool) (k : Nat) : (s.skipIf c).ea k = s.ea k := by cases c <;> rfl
@[simp] theorem State.skipIf_shiftSource (s : State) (c : Bool) (y z : RegNo) : (s.skipIf c).shiftSource y z = s.shiftSource y z := by cases c <;> rfl

/-! #### tick -/

@[simp] theorem State.tick_v (s : State) : s.tick.v = s.v := rfl
@[simp] theorem State.tick_i (s : State) : s.tick.i = s.i := rfl
@[simp] theorem State.tick_pc (s : State) : s.tick.pc = s.pc := rfl
@[simp] theorem State.tick_sp (s : State) : s.tick.sp = s.sp := rfl
@[simp] theorem State.tick_dt (s : State) : s.tick.dt = tickReg s.dt := rfl
@[simp] theorem State.tick_st (s : State) : s.tick.st = tickReg s.st := rfl
@[simp] theorem State.tick_mem (s : State) : s.tick.mem = s.mem := rfl
@[simp] theorem State.tick_fb (s : State) : s.tick.fb = s.fb := rfl
@[simp] theorem State.tick_fbDirty (s : State) : s.tick.fbDirty = s.fbDirty := rfl
@[simp] theorem State.tick_status (s : State) : s.tick.status = s.status := rfl
@[simp] theorem State.tick_params (s : State) : s.tick.params = s.params := rfl
@[simp] theorem State.tick_keys (s : State) : s.tick.keys = s.keys := rfl
@[simp] theorem State.tick_schedule (s : State) : s.tick.schedule = s.schedule := rfl
@[simp] theorem State.tick_draws (s : State) : s.tick.draws = s.draws := rfl
@[simp] theorem State.tick_reg (s : State) (y : RegNo) : s.tick.reg y = s.reg y := rfl
@[simp] theorem State.tick_V (s : State) (y : RegNo) : s.tick.V y = s.V y := rfl
@[simp] theorem State.tick_bits (s : State) (y : RegNo) : s.tick.bits y = s.bits y := rfl
@[simp] theorem State.tick_byteAt (s : State) (a : Nat) : s.tick.byteAt a = s.byteAt a := rfl
@[simp] theorem State.tick_pixel (s : State) (px : Fin 64) (py : Fin 32) : s.tick.pixel px py = s.pixel px py := rfl
@[simp] theorem State.tick_keyDown (s : State) (k : Nat) : s.tick.keyDown k = s.keyDown k := rfl
@[simp] theorem State.tick_downKeys (s : State) : s.tick.downKeys = s.downKeys := rfl
@[simp] theorem State.tick_ea (s : State) (k : Nat) : s.tick.ea k = s.ea k := rfl
@[simp] theorem State.tick_shiftSource (s : State) (y z : RegNo) : s.tick.shiftSource y z = s.shiftSource y z := rfl

/-! #### The register that setV writes -/

@[simp] theorem State.setV_reg_same (s : State) (x : RegNo) (v : Int) : (s.setV x v).reg x = regSet 8 v := by
  simp [State.reg, State.setV]

theorem State.setV_reg (s : State) (x y : RegNo) (v : Int) :
    (s.setV x v).reg y = if x = y then regSet 8 v else s.reg y := by
  simp only [State.reg, State.setV, Fin.getElem_fin, Vector.getElem_set, Fin.val_inj]

theorem State.setV_reg_other (s : State) {x y : RegNo} (h : x ≠ y) (v : Int) : (s.setV x v).reg y = s.reg y := by
  rw [State.setV_reg, if_neg h]

/-- A state is its fields: the register file is known by its sixteen registers. -/
theorem State.v_ext {s t : State} (h : ∀ x, s.reg x = t.reg x) : s.v = t.v := by
  apply Vector.ext
  intro k hk
  simpa [State.reg] using h (Fin.mk k hk)

end Sys2Proof.Machine
end

