-- ==== Sys2Proof/Laws/Memory.lean ====
section
/-! SUPPORT. The laws of memory: what a write does to every read, and that every operation keeps the canonical form. -/

namespace Sys2Proof.Machine

/-! ### Reads after writes -/

theorem Memory.lookup_put_same (m : Memory) (a : Nat) (v : Byte) : (m.put a v).lookup a = some v := by
  induction m with
  | nil => simp [Memory.put, Memory.lookup]
  | cons c rest ih =>
    obtain ⟨b, w⟩ := c
    simp only [Memory.put]
    split
    · simp [Memory.lookup]
    · split
      · simp [Memory.lookup]
      · simp_all [Memory.lookup]

theorem Memory.lookup_put_other (m : Memory) {a b : Nat} (h : b ≠ a) (v : Byte) : (m.put a v).lookup b = m.lookup b := by
  induction m with
  | nil => simp [Memory.put, Memory.lookup, h]
  | cons c rest ih =>
    obtain ⟨d, w⟩ := c
    simp only [Memory.put]
    split
    · simp [Memory.lookup, h]
    · split
      · subst_vars; simp [Memory.lookup, h]
      · simp only [Memory.lookup, ih]

theorem Memory.lookup_drop_same (m : Memory) (a : Nat) : (m.drop a).lookup a = none := by
  induction m with
  | nil => simp [Memory.drop, Memory.lookup]
  | cons c rest ih =>
    obtain ⟨b, w⟩ := c
    simp only [Memory.drop]
    split
    · exact ih
    · simp_all [Memory.lookup]

theorem Memory.lookup_drop_other (m : Memory) {a b : Nat} (h : b ≠ a) : (m.drop a).lookup b = m.lookup b := by
  induction m with
  | nil => rfl
  | cons c rest ih =>
    obtain ⟨d, w⟩ := c
    simp only [Memory.drop]
    split
    · subst_vars; simp [Memory.lookup, h, ih]
    · simp only [Memory.lookup, ih]

/-- A byte written is the byte read. -/
@[simp] theorem Memory.get_set_same (font : Vector Byte 80) (m : Memory) (a : Nat) (v : Byte) :
    Memory.get font (m.set font a v) a = v := by
  unfold Memory.get Memory.set
  split
  · rename_i h; rw [Memory.lookup_drop_same, h]; rfl
  · rw [Memory.lookup_put_same]; rfl

/-- A write leaves every other address alone. -/
theorem Memory.get_set_other (font : Vector Byte 80) (m : Memory) {a b : Nat} (h : b ≠ a) (v : Byte) :
    Memory.get font (m.set font a v) b = Memory.get font m b := by
  unfold Memory.get Memory.set
  split
  · rw [Memory.lookup_drop_other m h]
  · rw [Memory.lookup_put_other m h]

theorem Memory.get_set (font : Vector Byte 80) (m : Memory) (a b : Nat) (v : Byte) :
    Memory.get font (m.set font a v) b = if b = a then v else Memory.get font m b := by
  split
  · subst_vars; simp
  · rename_i h; exact Memory.get_set_other font m h v

/-- Bytes written in a row leave every address outside their range alone. -/
theorem Memory.get_setBytes_outside (font : Vector Byte 80) (bs : List Byte) :
    ∀ (m : Memory) (a b : Nat), b < a ∨ a + bs.length ≤ b →
      Memory.get font (Memory.setBytes font m a bs) b = Memory.get font m b := by
  induction bs with
  | nil => intros; rfl
  | cons x xs ih =>
    intro m a b h
    simp only [List.length_cons] at h
    rw [Memory.setBytes, ih _ _ _ (by omega), Memory.get_set_other]
    omega

/-- Bytes written in a row are read back in order. -/
theorem Memory.get_setBytes_inside (font : Vector Byte 80) (bs : List Byte) :
    ∀ (m : Memory) (a k : Nat) (h : k < bs.length), Memory.get font (Memory.setBytes font m a bs) (a + k) = bs[k] := by
  induction bs with
  | nil => intro m a k h; simp at h
  | cons x xs ih =>
    intro m a k h
    rw [Memory.setBytes]
    cases k with
    | zero => rw [Memory.get_setBytes_outside _ _ _ _ _ (by omega)]; simp
    | succ k =>
      have h' : k < xs.length := by simpa using h
      rw [show a + (k + 1) = (a + 1) + k by omega, ih _ _ _ h']
      rfl

/-! ### The canonical form -/

theorem Memory.put_mem {m : Memory} {a : Nat} {v : Byte} {c : Host.Cell} (h : c ∈ m.put a v) : c = (a, v) ∨ c ∈ m := by
  induction m with
  | nil => simpa [Memory.put] using h
  | cons d rest ih =>
    obtain ⟨b, w⟩ := d
    simp only [Memory.put] at h
    split at h
    · simpa using h
    · split at h
      · rcases List.mem_cons.1 h with h | h
        · exact .inl h
        · exact .inr (List.mem_cons_of_mem _ h)
      · rcases List.mem_cons.1 h with h | h
        · exact .inr (h ▸ List.mem_cons_self)
        · exact (ih h).imp id (List.mem_cons_of_mem _)

theorem Memory.drop_mem {m : Memory} {a : Nat} {c : Host.Cell} (h : c ∈ m.drop a) : c ∈ m := by
  induction m with
  | nil => exact h
  | cons d rest ih =>
    obtain ⟨b, w⟩ := d
    simp only [Memory.drop] at h
    split at h
    · exact List.mem_cons_of_mem _ (ih h)
    · rcases List.mem_cons.1 h with h | h
      · exact h ▸ List.mem_cons_self
      · exact List.mem_cons_of_mem _ (ih h)

theorem Memory.rising_cons (a : Nat) (v : Byte) (rest : Memory) :
    Memory.rising ((a, v) :: rest) = true ↔ (∀ c ∈ rest, a < c.1) ∧ Memory.rising rest = true := by
  simp [Memory.rising]

theorem Memory.put_rising {m : Memory} (a : Nat) (v : Byte) (h : m.rising = true) : (m.put a v).rising = true := by
  induction m with
  | nil => simp [Memory.put, Memory.rising]
  | cons c rest ih =>
    obtain ⟨b, w⟩ := c
    have ⟨hb, hr⟩ := (Memory.rising_cons b w rest).1 h
    simp only [Memory.put]
    split
    · rename_i hlt
      refine (Memory.rising_cons _ _ _).2 ⟨fun c hc => ?_, h⟩
      rcases List.mem_cons.1 hc with rfl | hc
      · exact hlt
      · exact lt_trans hlt (hb c hc)
    · split
      · subst_vars; exact (Memory.rising_cons _ _ _).2 ⟨hb, hr⟩
      · refine (Memory.rising_cons _ _ _).2 ⟨fun c hc => ?_, ih hr⟩
        rcases Memory.put_mem hc with rfl | hc
        · simp only; omega
        · exact hb c hc

theorem Memory.drop_rising {m : Memory} (a : Nat) (h : m.rising = true) : (m.drop a).rising = true := by
  induction m with
  | nil => rfl
  | cons c rest ih =>
    obtain ⟨b, w⟩ := c
    have ⟨hb, hr⟩ := (Memory.rising_cons b w rest).1 h
    simp only [Memory.drop]
    split
    · exact ih hr
    · exact (Memory.rising_cons _ _ _).2 ⟨fun c hc => hb c (Memory.drop_mem hc), ih hr⟩

/-- The canonical form, spelled out. -/
theorem Memory.wf_iff (font : Vector Byte 80) (m : Memory) :
    Memory.wf font m = true ↔ m.rising = true ∧ ∀ c ∈ m, c.1 < 4096 ∧ c.2 ≠ Memory.unlisted font c.1 := by
  simp only [Memory.wf, Bool.and_eq_true, List.all_eq_true, decide_eq_true_eq]
  rfl

theorem Memory.wf_nil (font : Vector Byte 80) : Memory.wf font [] = true := rfl

/-- A write keeps the canonical form. -/
theorem Memory.set_wf {font : Vector Byte 80} {m : Memory} {a : Nat} (v : Byte) (ha : a < 4096)
    (h : Memory.wf font m = true) : Memory.wf font (m.set font a v) = true := by
  rw [Memory.wf_iff] at h ⊢
  unfold Memory.set
  split
  · exact ⟨Memory.drop_rising a h.1, fun c hc => h.2 c (Memory.drop_mem hc)⟩
  · rename_i hv
    refine ⟨Memory.put_rising a v h.1, fun c hc => ?_⟩
    rcases Memory.put_mem hc with rfl | hc
    · exact ⟨ha, hv⟩
    · exact h.2 c hc

/-- Writes in a row keep the canonical form. -/
theorem Memory.setBytes_wf {font : Vector Byte 80} (bs : List Byte) :
    ∀ {m : Memory} {a : Nat}, a + bs.length ≤ 4096 → Memory.wf font m = true →
      Memory.wf font (Memory.setBytes font m a bs) = true := by
  induction bs with
  | nil => intro m a _ h; exact h
  | cons x xs ih =>
    intro m a hl h
    simp only [List.length_cons] at hl
    exact ih (by omega) (Memory.set_wf x (by omega) h)

end Sys2Proof.Machine
end

