-- ==== Sys2Proof/Laws/Ops.lean ====
section
/-! SUPPORT. One law per shared operation: the Register contract, the checked accesses, and how an instruction ends. -/

namespace Sys2Proof.Machine

/-! ### The Register contract -/

theorem regSet_value (w : Nat) (v : Int) : ((regSet w v).value.toNat : Int) = v % 2 ^ w := by
  have h : (0 : Int) < 2 ^ w := by positivity
  have h2 := Int.emod_nonneg v h.ne'
  simp only [regSet, BitVec.toNat_ofInt]
  push_cast
  exact Int.toNat_of_nonneg h2

theorem regSet_overflowed (w : Nat) (v : Int) : (regSet w v).overflowed = decide ((2 : Int) ^ w ≤ v) := by
  simp [regSet]

theorem regSet_borrowed (w : Nat) (v : Int) : (regSet w v).borrowed = decide (v < 0) := rfl

/-- What fits the width is stored as it is. -/
theorem regSet_value_small {w : Nat} {n : Nat} (h : n < 2 ^ w) : (regSet w (n : Int)).value.toNat = n := by
  have h1 := regSet_value w n
  have h2 : ((n : Int)) % 2 ^ w = n := Int.emod_eq_of_lt (by positivity) (by exact_mod_cast h)
  omega

/-- What fits the width leaves no flag. -/
theorem regSet_nat {w : Nat} (b : BitVec w) : regSet w (b.toNat : Int) = Reg.initial b := by
  have hb : (b.toNat : Int) < 2 ^ w := by exact_mod_cast b.isLt
  simp only [regSet, Reg.initial, Reg.mk.injEq]
  refine ⟨by simp, ?_, ?_⟩
  · simp only [decide_eq_false_iff_not, Nat.cast_pow, Nat.cast_ofNat]; omega
  · simp only [decide_eq_false_iff_not]; omega

theorem regSet_oneFlag (w : Nat) (v : Int) : (regSet w v).oneFlag := by
  have h : (0 : Int) < 2 ^ w := by positivity
  simp only [Reg.oneFlag, regSet_overflowed, regSet_borrowed, decide_eq_true_eq]
  omega

theorem regSet_value_nat (w n : Nat) : (regSet w (n : Int)).value = BitVec.ofNat w n := by
  simp [regSet]

/-! ### Checked accesses -/

theorem State.memRead1_ok (s : State) {a : Nat} (h : a < 4096) : s.memRead1 a = .ok (s.byteAt a) := if_pos h

theorem State.memRead1_error (s : State) {a : Nat} (h : 4096 ≤ a) : s.memRead1 a = .error a := if_neg (Nat.not_lt.2 h)

theorem State.memRead2_ok (s : State) {a : Nat} (h : a + 1 < 4096) :
    s.memRead2 a = .ok (s.byteAt a ++ s.byteAt (a + 1)) := by
  unfold State.memRead2
  rw [s.memRead1_ok (by omega), s.memRead1_ok h]
  rfl

theorem State.memRead2_error (s : State) {a : Nat} (h : 4096 ≤ a + 1) : s.memRead2 a = .error (max a 4096) := by
  unfold State.memRead2
  rcases Nat.lt_or_ge a 4096 with ha | ha
  · rw [s.memRead1_ok ha, s.memRead1_error h]
    simp only [Except.error.injEq]; omega
  · rw [s.memRead1_error ha]
    simp only [Except.error.injEq]; omega

/-- The state after a byte is written. -/
def State.withByte (s : State) (a : Nat) (v : Byte) : State := { s with mem := s.mem.set s.params.font a v }

theorem State.memWrite1_ok (s : State) {a : Nat} (v : Byte) (h : a < 4096) :
    s.memWrite1 a v = .ok (s.withByte a v) := if_pos h

theorem State.memWrite1_error (s : State) {a : Nat} (v : Byte) (h : 4096 ≤ a) : s.memWrite1 a v = .error a :=
  if_neg (Nat.not_lt.2 h)

@[simp] theorem State.byteAt_withByte (s : State) (a b : Nat) (v : Byte) :
    (s.withByte a v).byteAt b = if b = a then v else s.byteAt b := by
  simp [State.byteAt, State.withByte, Memory.get_set]

theorem State.memWrite2_ok (s : State) {a : Nat} (v : Word) (h : a + 1 < 4096) :
    s.memWrite2 a v = .ok ((s.withByte a (highByte v)).withByte (a + 1) (lowByte v)) := by
  unfold State.memWrite2
  rw [s.memWrite1_ok _ (by omega)]
  exact State.memWrite1_ok _ _ h

theorem State.memWrite2_error (s : State) {a : Nat} (v : Word) (h : 4096 ≤ a + 1) :
    s.memWrite2 a v = .error (max a 4096) := by
  unfold State.memWrite2
  rcases Nat.lt_or_ge a 4096 with ha | ha
  · rw [s.memWrite1_ok _ ha]
    rw [show max a 4096 = a + 1 by omega]
    exact State.memWrite1_error _ _ h
  · rw [s.memWrite1_error _ ha, show max a 4096 = a by omega]

/-- A run of reads that stays inside memory gives the bytes in order. -/
theorem State.readBytes_ok (s : State) : ∀ {count a : Nat}, a + count ≤ 4096 →
    s.readBytes a count = .ok ((List.range' a count).map s.byteAt)
  | 0, _, _ => rfl
  | count + 1, a, h => by
    rw [State.readBytes, s.memRead1_ok (by omega), State.readBytes_ok s (count := count) (a := a + 1) (by omega)]
    rfl

/-- A run of reads that leaves memory names the first address outside. -/
theorem State.readBytes_error (s : State) (count : Nat) : ∀ {a : Nat}, 1 ≤ count → 4096 < a + count →
    s.readBytes a count = .error (max a 4096) := by
  induction count with
  | zero => intro a h; omega
  | succ count ih =>
    intro a _ h
    rw [State.readBytes]
    rcases Nat.lt_or_ge a 4096 with ha | ha
    · rw [s.memRead1_ok ha, ih (a := a + 1) (by omega) (by omega), show max (a + 1) 4096 = max a 4096 by omega]
    · rw [s.memRead1_error ha, show max a 4096 = a by omega]

/-- The state after bytes are written in a row. -/
def State.withBytes (s : State) (a : Nat) (bs : List Byte) : State :=
  { s with mem := Memory.setBytes s.params.font s.mem a bs }

theorem State.withBytes_cons (s : State) (a : Nat) (b : Byte) (bs : List Byte) :
    s.withBytes a (b :: bs) = (s.withByte a b).withBytes (a + 1) bs := rfl

/-- A run of writes that stays inside memory completes. -/
theorem State.writeBytes_ok : ∀ (bs : List Byte) (s : State) {a : Nat}, a + bs.length ≤ 4096 →
    s.writeBytes a bs = .ok (s.withBytes a bs)
  | [], _, _, _ => rfl
  | b :: bs, s, a, h => by
    simp only [List.length_cons] at h
    rw [State.writeBytes, s.memWrite1_ok _ (by omega)]
    exact State.writeBytes_ok bs _ (by omega)

/-- A run of writes that leaves memory names the first address outside. -/
theorem State.writeBytes_error (bs : List Byte) : ∀ (s : State) {a : Nat}, bs ≠ [] → 4096 < a + bs.length →
    s.writeBytes a bs = .error (max a 4096) := by
  induction bs with
  | nil => intro s a h; exact absurd rfl h
  | cons b bs ih =>
    intro s a _ h
    simp only [List.length_cons] at h
    rw [State.writeBytes]
    rcases Nat.lt_or_ge a 4096 with ha | ha
    · have hb : bs ≠ [] := by rintro rfl; simp only [List.length_nil] at h; omega
      rw [s.memWrite1_ok _ ha]
      simp only
      rw [ih _ hb (by omega), show max (a + 1) 4096 = max a 4096 by omega]
    · rw [s.memWrite1_error _ ha, show max a 4096 = a by omega]

theorem State.byteAt_withBytes_inside (s : State) (a k : Nat) (bs : List Byte) (h : k < bs.length) :
    (s.withBytes a bs).byteAt (a + k) = bs[k] := Memory.get_setBytes_inside _ _ _ _ _ h

theorem State.byteAt_withBytes_outside (s : State) (a b : Nat) (bs : List Byte) (h : b < a ∨ a + bs.length ≤ b) :
    (s.withBytes a bs).byteAt b = s.byteAt b := Memory.get_setBytes_outside _ _ _ _ _ h

/-! ### Register runs -/

@[simp] theorem regsUpTo_length (x : RegNo) : (regsUpTo x).length = x.val + 1 := by
  simp [regsUpTo]

/-- The `k`-th register of a run is register `k`. -/
theorem regsUpTo_getElem (x : RegNo) (k : Nat) (h : k < (regsUpTo x).length) :
    ((regsUpTo x)[k]).val = k := by
  simp [regsUpTo]

/-- A run of register loads changes only the registers of the run. -/
theorem fillRegs_other (r : RegNo) : ∀ (ks : List RegNo) (bs : List Byte) (s : State), r ∉ ks →
    (fillRegs s ks bs).reg r = s.reg r
  | [], _, _, _ => by simp [fillRegs]
  | _ :: _, [], _, _ => by simp [fillRegs]
  | k :: ks, b :: bs, s, h => by
    rw [List.mem_cons, not_or] at h
    rw [fillRegs, fillRegs_other r ks bs _ h.2, State.setV_reg_other s (Ne.symm h.1)]

/-- A run of register loads puts byte `j` in the run's register `j`. -/
theorem fillRegs_get : ∀ (ks : List RegNo) (bs : List Byte) (s : State), ks.Nodup → ks.length = bs.length →
    ∀ (j : Nat) (hj : j < ks.length) (hb : j < bs.length), (fillRegs s ks bs).reg ks[j] = Reg.initial bs[j]
  | [], _, _, _, _, j, hj, _ => by simp at hj
  | _ :: _, [], _, _, hl, _, _, _ => by simp at hl
  | k :: ks, b :: bs, s, hn, hl, 0, _, _ => by
    have hk := (List.nodup_cons.1 hn).1
    simp only [fillRegs, List.getElem_cons_zero]
    rw [fillRegs_other k ks bs _ hk, State.setV_reg_same, regSet_nat]
  | k :: ks, b :: bs, s, hn, hl, j + 1, hj, hb => by
    simp only [fillRegs, List.getElem_cons_succ]
    exact fillRegs_get ks bs _ (List.nodup_cons.1 hn).2 (by simpa using hl) j (by simpa using hj) (by simpa using hb)

/-- A run of register loads touches nothing but the general registers. -/
theorem fillRegs_rest : ∀ (ks : List RegNo) (bs : List Byte) (s : State),
    ∃ v, fillRegs s ks bs = { s with v := v }
  | [], _, s => ⟨s.v, by simp [fillRegs]⟩
  | _ :: _, [], s => ⟨s.v, by simp [fillRegs]⟩
  | k :: ks, b :: bs, s => by
    obtain ⟨v, hv⟩ := fillRegs_rest ks bs (s.setV k b.toNat)
    exact ⟨v, by rw [fillRegs, hv]; rfl⟩

theorem regsUpTo_nodup (x : RegNo) : (regsUpTo x).Nodup :=
  (List.nodup_finRange 16).sublist (List.take_sublist _ _)

theorem mem_regsUpTo (x k : RegNo) : k ∈ regsUpTo x ↔ k ≤ x := by
  constructor
  · intro h
    obtain ⟨j, hj, rfl⟩ := List.getElem_of_mem h
    have := regsUpTo_getElem x j hj
    simp only [regsUpTo_length] at hj
    exact Fin.le_def.2 (by omega)
  · intro h
    have hk : k.val < (regsUpTo x).length := by
      have := Fin.le_def.1 h
      simp only [regsUpTo_length]; omega
    have : (regsUpTo x)[k.val] = k := Fin.ext (regsUpTo_getElem x k.val hk)
    exact this ▸ List.getElem_mem hk

/-! ### How an instruction ends -/

theorem withAccess_next {α : Type} {i : Instr} {s t : State} {r : Except Nat α} {go : α → Result}
    (h : withAccess i s r go = .next t) : ∃ x, r = .ok x ∧ go x = .next t := by
  cases r with
  | error a => simp [withAccess, raise] at h
  | ok x => exact ⟨x, rfl, h⟩

theorem endContinue_next {s t : State} (h : endContinue s = .next t) : t = s.advance := by
  simpa [endContinue] using h.symm

theorem endJumped_next {s t : State} (h : endJumped s = .next t) : t = s := by
  simpa [endJumped] using h.symm

/-- The advance as a Register add. -/
theorem State.advance_pc_regAdd (s : State) : s.advance.pc = regAdd s.pc 2 := rfl

/-- The advance raises the value of PC by 2, modulo 65536. -/
@[simp] theorem regAdd_two_value (p : Reg 16) : (regAdd p 2).value = p.value + 2 := by
  simp only [regAdd, regSet]
  apply BitVec.eq_of_toNat_eq
  have := p.value.isLt
  have h2 : (2 : BitVec 16).toNat = 2 := rfl
  simp only [BitVec.toNat_ofInt, BitVec.toNat_add, h2]
  omega

/-- An instruction with a flag completes: the result to Vx, then the flag to VF, then the advance. -/
theorem resultThenFlag_eq (s : State) (x : RegNo) (result : Int) (flag : State → Int) :
    resultThenFlag s x result flag =
      .next ((s.setV x result).setV VF (flag (s.setV x result))).advance := rfl

/-- A keypad skip with a key code completes. -/
theorem skipOnKey_ok (i : Instr) (wanted : Bool) {s : State} {x : RegNo} (h : s.V x ≤ 15) :
    skipOnKey i x wanted s = .next (s.skipIf (s.keyDown (s.V x) == wanted)).advance :=
  if_neg (Nat.not_lt.2 h)

/-- A keypad skip without a key code faults. -/
theorem skipOnKey_error (i : Instr) (wanted : Bool) {s : State} {x : RegNo} (h : 15 < s.V x) :
    skipOnKey i x wanted s = .fault (.keyCodeRange { pc0 := s.pc.value, opcode := encode i, value := s.V x }) :=
  if_pos h

/-! ### Keys and draws -/

theorem State.mem_downKeys (s : State) (k : Fin 16) : k ∈ s.downKeys ↔ s.keyDown k.val = true := by
  simp [State.downKeys, List.mem_finRange]

/-- The key chosen is one of those offered, and only the count of draws may change. -/
theorem chooseKey_spec (s : State) (key : Fin 16) (others : List (Fin 16)) :
    (chooseKey s key others).1 ∈ key :: others ∧
    ((chooseKey s key others).2 = s ∨ (chooseKey s key others).2 = s.nextDraw) := by
  cases others with
  | nil => simp [chooseKey]
  | cons o os =>
    refine ⟨?_, .inr rfl⟩
    simp only [chooseKey]
    have h : Config.keyChoice s.draws % ((o :: os).length + 1) < (key :: o :: os).length := by
      simpa using Nat.mod_lt (Config.keyChoice s.draws) (by simp : 0 < os.length + 1 + 1)
    rw [List.getD_eq_getElem _ _ h]
    exact List.getElem_mem h

end Sys2Proof.Machine
end

