-- ==== Sys2Proof/Laws/Blit.lean ====
section
/-! SUPPORT. The laws of the framebuffer: pixels after a write, and what one sprite bit does. -/

namespace Sys2Proof.Machine

/-- A framebuffer is its pixels. -/
theorem Framebuffer.ext {f g : Framebuffer} (h : ∀ px py, Framebuffer.get f px py = Framebuffer.get g px py) :
    f = g := by
  apply Vector.ext
  intro j hj
  apply Vector.ext
  intro k hk
  exact h (Fin.mk k hk) (Fin.mk j hj)

@[simp] theorem Framebuffer.get_clear (px : Fin 64) (py : Fin 32) : Framebuffer.get Framebuffer.clear px py = false := by
  simp [Framebuffer.get, Framebuffer.clear]

/-- A pixel written is the pixel read, and no other pixel changes. -/
theorem Framebuffer.get_set (f : Framebuffer) (px qx : Fin 64) (py qy : Fin 32) (b : Bool) :
    Framebuffer.get (Framebuffer.set f px py b) qx qy = if qx = px ∧ qy = py then b else Framebuffer.get f qx qy := by
  simp only [Framebuffer.get, Framebuffer.set, Fin.getElem_fin, Vector.getElem_set, Fin.ext_iff]
  by_cases hy : py.val = qy.val
  · by_cases hx : px.val = qx.val
    · simp [hy, hx]
    · simp [hy, hx, Ne.symm hx]
  · simp [hy, Ne.symm hy]

/-- One sprite bit on one pixel: the pixel is flipped iff the bit is 1. -/
theorem blitPixel_get (px qx : Fin 64) (py qy : Fin 32) (color : Bool) (b : Blit) :
    Framebuffer.get (blitPixel px py color b).fb qx qy =
      if qx = px ∧ qy = py then Framebuffer.get b.fb px py ^^ color else Framebuffer.get b.fb qx qy :=
  Framebuffer.get_set b.fb px qx py qy _

/-- One sprite bit on one pixel: a collision is a 1 on a 1. -/
theorem blitPixel_collided (px : Fin 64) (py : Fin 32) (color : Bool) (b : Blit) :
    (blitPixel px py color b).collided = (b.collided || (color && Framebuffer.get b.fb px py)) := rfl

/-- Two columns of a sprite row never fall on the same column of the framebuffer (R132, corner case 5). -/
theorem spriteColumn_injective {vx i k : Nat} (hi : i < 8) (hk : k < 8) (h : spriteColumn vx i = spriteColumn vx k) :
    i = k := by
  have := congrArg Fin.val h
  simp only [spriteColumn, Fin.ofNat] at this
  omega

/-- Two rows of a sprite never fall on the same row of the framebuffer (R132, corner case 5). -/
theorem spriteRow_injective {vy j k : Nat} (hj : j < 16) (hk : k < 16) (h : spriteRow vy j = spriteRow vy k) :
    j = k := by
  have := congrArg Fin.val h
  simp only [spriteRow, Fin.ofNat] at this
  omega

/-- A 1 bit among columns i.. of a row byte falls on column qx. -/
def ColumnHit (vx : Nat) (row : Byte) (i count : Nat) (qx : Fin 64) : Prop :=
  ∃ k, i ≤ k ∧ k < i + count ∧ row.getLsbD (7 - k) = true ∧ spriteColumn vx k = qx

theorem columnHit_succ (vx : Nat) (row : Byte) (i count : Nat) (qx : Fin 64) : ColumnHit vx row i (count+1) qx ↔
   (row.getLsbD (7 - i) = true ∧ spriteColumn vx i = qx) ∨ ColumnHit vx row (i+1) count qx := by
  constructor
  · rintro ⟨k, h1, h2, h3, h4⟩
    rcases Nat.eq_or_lt_of_le h1 with rfl | h
    · exact .inl ⟨h3, h4⟩
    · exact .inr ⟨k, h, by omega, h3, h4⟩
  · rintro (⟨h3, h4⟩ | ⟨k, h1, h2, h3, h4⟩)
    · exact ⟨i, le_refl _, by omega, h3, h4⟩
    · exact ⟨k, by omega, by omega, h3, h4⟩

/-- Columns of one sprite row: exactly the hit pixels of that row are flipped; a collision is a hit on a lit pixel. -/
theorem blitColumns_spec (vx : Nat) (py : Fin 32) (row : Byte) : ∀ (count i : Nat) (b : Blit), i + count ≤ 8 →
    (∀ qx, ColumnHit vx row i count qx → Framebuffer.get (blitColumns vx py row i count b).fb qx py = !Framebuffer.get b.fb qx py) ∧
    (∀ qx qy, (qy = py → ¬ ColumnHit vx row i count qx) → Framebuffer.get (blitColumns vx py row i count b).fb qx qy = Framebuffer.get b.fb qx qy) ∧
    ((blitColumns vx py row i count b).collided = true ↔ b.collided = true ∨ ∃ qx, ColumnHit vx row i count qx ∧ Framebuffer.get b.fb qx py = true)
  | 0, i, b, _ => by
    have : ∀ qx, ¬ ColumnHit vx row i 0 qx := by rintro qx ⟨k, h1, h2, _⟩; omega
    simp [blitColumns, this]
  | count+1, i, b, h => by
    obtain ⟨h1, h2, h3⟩ := blitColumns_spec vx py row count (i+1) (blitPixel (spriteColumn vx i) py (row.getLsbD (7 - i)) b) (by omega)
    have fresh : ¬ ColumnHit vx row (i+1) count (spriteColumn vx i) := by
      rintro ⟨k, a, b, _, e⟩
      have := spriteColumn_injective (by omega) (by omega) e; omega
    simp only [blitColumns]
    refine ⟨?_, ?_, ?_⟩
    · intro qx hq
      rcases (columnHit_succ ..).1 hq with ⟨hb, rfl⟩ | hq
      · rw [h2 _ _ (fun _ => fresh), blitPixel_get]; simp [hb]
      · rw [h1 _ hq, blitPixel_get]
        rw [if_neg]; rintro ⟨rfl, _⟩; exact fresh hq
    · intro qx qy hq
      rw [columnHit_succ] at hq
      rw [h2 _ _ (fun e => fun c => hq e (.inr c)), blitPixel_get]
      split
      · rename_i e; obtain ⟨rfl, rfl⟩ := e
        have := hq rfl; simp at this; simp [this.1]
      · rfl
    · rw [h3]
      simp only [blitPixel_collided, Bool.or_eq_true, Bool.and_eq_true, columnHit_succ]
      constructor
      · rintro ((h | ⟨a, c⟩) | ⟨qx, hq, g⟩)
        · exact .inl h
        · exact .inr ⟨_, .inl ⟨a, rfl⟩, c⟩
        · rw [blitPixel_get, if_neg] at g
          · exact .inr ⟨qx, .inr hq, g⟩
          · rintro ⟨rfl, _⟩; exact fresh hq
      · rintro (h | ⟨qx, (⟨a, rfl⟩ | hq), g⟩)
        · exact .inl (.inl h)
        · exact .inl (.inr ⟨a, g⟩)
        · refine .inr ⟨qx, hq, ?_⟩
          rw [blitPixel_get, if_neg]
          · exact g
          · rintro ⟨rfl, _⟩; exact fresh hq

/-- A 1 bit among the sprite rows j.. falls on pixel (qx, qy). -/
def RowHit (vx vy : Nat) (j : Nat) (rows : List Byte) (qx : Fin 64) (qy : Fin 32) : Prop :=
  ∃ k, ∃ h : k < rows.length, spriteRow vy (j + k) = qy ∧ ColumnHit vx rows[k] 0 8 qx

theorem rowHit_cons (vx vy j : Nat) (row : Byte) (rows : List Byte) (qx : Fin 64) (qy : Fin 32) : RowHit vx vy j (row :: rows) qx qy ↔
    (spriteRow vy j = qy ∧ ColumnHit vx row 0 8 qx) ∨ RowHit vx vy (j+1) rows qx qy := by
  constructor
  · rintro ⟨k, h, e, c⟩
    cases k with
    | zero => exact .inl ⟨e, c⟩
    | succ k => exact .inr ⟨k, by simpa using h, by rw [← e]; congr 1; omega, by simpa using c⟩
  · rintro (⟨e, c⟩ | ⟨k, h, e, c⟩)
    · exact ⟨0, by simp, e, c⟩
    · exact ⟨k+1, by simpa using h, by rw [← e]; congr 1; omega, by simpa using c⟩

/-- Rows of a sprite: exactly the hit pixels are flipped; a collision is a hit on a lit pixel. -/
theorem blitRows_spec (vx vy : Nat) : ∀ (rows : List Byte) (j : Nat) (b : Blit), j + rows.length ≤ 16 →
    (∀ qx qy, RowHit vx vy j rows qx qy → Framebuffer.get (blitRows vx vy j rows b).fb qx qy = !Framebuffer.get b.fb qx qy) ∧
    (∀ qx qy, ¬ RowHit vx vy j rows qx qy → Framebuffer.get (blitRows vx vy j rows b).fb qx qy = Framebuffer.get b.fb qx qy) ∧
    ((blitRows vx vy j rows b).collided = true ↔ b.collided = true ∨ ∃ qx qy, RowHit vx vy j rows qx qy ∧ Framebuffer.get b.fb qx qy = true)
  | [], j, b, _ => by
    have : ∀ qx qy, ¬ RowHit vx vy j [] qx qy := by rintro qx qy ⟨k, h, _⟩; simp at h
    simp [blitRows, this]
  | row :: rows, j, b, hl => by
    simp only [List.length_cons] at hl
    obtain ⟨h1, h2, h3⟩ := blitRows_spec vx vy rows (j+1) (blitColumns vx (spriteRow vy j) row 0 Config.spriteWidth b) (by omega)
    obtain ⟨c1, c2, c3⟩ := blitColumns_spec vx (spriteRow vy j) row 8 0 b (by omega)
    have fresh : ∀ qx, ¬ RowHit vx vy (j+1) rows qx (spriteRow vy j) := by
      rintro qx ⟨k, hk, e, _⟩
      have := spriteRow_injective (by omega) (by omega) e; omega
    simp only [blitRows, Config.spriteWidth] at *
    refine ⟨?_, ?_, ?_⟩
    · intro qx qy hq
      rcases (rowHit_cons ..).1 hq with ⟨rfl, hc⟩ | hq
      · rw [h2 _ _ (fresh qx), c1 _ hc]
      · rw [h1 _ _ hq, c2]; rintro rfl; exact absurd hq (fresh qx)
    · intro qx qy hq
      rw [rowHit_cons] at hq
      rw [h2 _ _ (fun c => hq (.inr c)), c2]
      rintro rfl hc; exact hq (.inl ⟨rfl, hc⟩)
    · rw [h3, c3]
      simp only [rowHit_cons]
      constructor
      · rintro ((h | ⟨qx, a, c⟩) | ⟨qx, qy, hq, g⟩)
        · exact .inl h
        · exact .inr ⟨_, _, .inl ⟨rfl, a⟩, c⟩
        · refine .inr ⟨qx, qy, .inr hq, ?_⟩
          rwa [c2] at g; rintro rfl; exact absurd hq (fresh qx)
      · rintro (h | ⟨qx, qy, (⟨rfl, a⟩ | hq), g⟩)
        · exact .inl (.inl h)
        · exact .inl (.inr ⟨qx, a, g⟩)
        · refine .inr ⟨qx, qy, hq, ?_⟩
          rwa [c2]; rintro rfl; exact absurd hq (fresh qx)

/-- The pixels a sprite covers are the hit pixels of the bytes `Dxyn` reads. -/
theorem spriteCovers_iff (s : State) (vx vy n : Nat) (px : Fin 64) (py : Fin 32) :
    SpriteCovers s vx vy n px py ↔ RowHit vx vy 0 ((List.range' (s.ea 0) n).map s.byteAt) px py := by
  constructor
  · rintro ⟨j, i, hj, hi, hb, hx, hy⟩
    refine ⟨j, by simpa using hj, ?_, i, by omega, by omega, ?_, ?_⟩
    · apply Fin.ext; simpa [spriteRow, Fin.ofNat] using hy
    · simpa [State.ea] using hb
    · apply Fin.ext; simpa [spriteColumn, Fin.ofNat] using hx
  · rintro ⟨j, hj, hy, i, _, hi, hb, hx⟩
    refine ⟨j, i, by simpa using hj, by omega, ?_, ?_, ?_⟩
    · simpa [State.ea] using hb
    · rw [← hx]; rfl
    · rw [← hy]; simp [spriteRow, Fin.ofNat]

end Sys2Proof.Machine
end

