-- ==== Sys2Proof/Laws/Decode.lean ====
section
/-! SUPPORT. The fields of a word that a mask keeps, and the two bytes of a word. -/

namespace Sys2Proof

/-- A mask that keeps a run of bits keeps each of them. -/
theorem mask_bit {m c : Word} (h : m &&& c = c) {j : Nat} (hj : c.getLsbD j = true) : m.getLsbD j = true := by
  have := congrArg (fun v => BitVec.getLsbD v j) h
  simp only [BitVec.getLsbD_and, hj, Bool.and_true] at this
  exact this

/-- Bits that a mask keeps are read through it. -/
theorem extract_mask (w m : Word) (start len : Nat) (h : ∀ j, start ≤ j → j < start + len → m.getLsbD j = true) :
    w.extractLsb' start len = (w &&& m).extractLsb' start len := by
  apply BitVec.eq_of_getLsbD_eq
  intro k hk
  simp [BitVec.getLsbD_extractLsb', BitVec.getLsbD_and, h (start + k) (by omega) (by omega)]

theorem groupOf_mask (w m : Word) (h : m &&& 0xF000 = 0xF000) : groupOf w = groupOf (w &&& m) :=
  extract_mask w m 12 4 (fun j h1 h2 => mask_bit h (by interval_cases j <;> rfl))

theorem nnOf_mask (w m : Word) (h : m &&& 0x00FF = 0x00FF) : nnOf w = nnOf (w &&& m) :=
  extract_mask w m 0 8 (fun j h1 h2 => mask_bit h (by interval_cases j <;> rfl))

theorem nOf_mask (w m : Word) (h : m &&& 0x000F = 0x000F) : nOf w = nOf (w &&& m) := by
  simp only [nOf]
  rw [extract_mask w m 0 4 (fun j h1 h2 => mask_bit h (by interval_cases j <;> rfl))]

/-- A word that matches under the mask F000 has the group of the pattern. -/
theorem group_of_match {w p : Word} (h : w &&& 0xF000 = p) : groupOf w = groupOf p := by
  rw [groupOf_mask w 0xF000 rfl, h]

/-- A word that matches under the mask F00F has the group and the low nibble of the pattern. -/
theorem group_n_of_match {w p : Word} (h : w &&& 0xF00F = p) : groupOf w = groupOf p ∧ nOf w = nOf p :=
  ⟨by rw [groupOf_mask w 0xF00F rfl, h], by rw [nOf_mask w 0xF00F rfl, h]⟩

/-- A word that matches under the mask F0FF has the group and the low byte of the pattern. -/
theorem group_nn_of_match {w p : Word} (h : w &&& 0xF0FF = p) : groupOf w = groupOf p ∧ nnOf w = nnOf p :=
  ⟨by rw [groupOf_mask w 0xF0FF rfl, h], by rw [nnOf_mask w 0xF0FF rfl, h]⟩

/-- The two bytes of a word put together are the word. -/
@[simp] theorem highByte_append_lowByte (v : Word) : highByte v ++ lowByte v = v := by
  apply BitVec.eq_of_getLsbD_eq
  intro k hk
  simp only [highByte, lowByte, BitVec.getLsbD_append, BitVec.getLsbD_extractLsb']
  interval_cases k <;> simp

/-- The bytes of an instruction decode to what its word decodes to. -/
theorem decodeBytes_encodeBytes {i j : Instr} (h : decodeWord (encode i) = .ok j) (rest : List Byte) :
    decodeBytes (encodeBytes i ++ rest) = .ok (j, rest) := by
  simp only [encodeBytes, List.cons_append, List.nil_append, decodeBytes, wordOfBytes, highByte_append_lowByte, h]

end Sys2Proof
end

