-- ==== Sys2Proof/Laws/PerInstr.lean ====
section
/-! SUPPORT. One lemma per instruction: its encoding carries the fixed bits of its row of the opcode map (R66). -/

namespace Sys2Proof.Laws.OpcodePattern

/-- The canonical word of an instruction matches the row of R66 it belongs to. -/
def Statement (i : Instr) : Prop := encode i &&& (opcodeRow i).mask = (opcodeRow i).pattern

theorem formatA_masked (g : BitVec 4) (nnn : Addr12) : formatA g nnn &&& 0xF000 = g ++ (0 : BitVec 12) := by
  apply BitVec.eq_of_getLsbD_eq
  intro k hk
  simp only [formatA, BitVec.getLsbD_and, BitVec.getLsbD_append]
  interval_cases k <;> simp

theorem formatXK_masked (g : BitVec 4) (x : RegNo) (nn : Byte) : formatXK g x nn &&& 0xF000 = g ++ (0 : BitVec 12) := by
  apply BitVec.eq_of_getLsbD_eq
  intro k hk
  simp only [formatXK, BitVec.getLsbD_and, BitVec.getLsbD_append]
  interval_cases k <;> simp

theorem formatXS_masked (g : BitVec 4) (x : RegNo) (nn : Byte) : formatXK g x nn &&& 0xF0FF = g ++ (0 : BitVec 4) ++ nn := by
  apply BitVec.eq_of_getLsbD_eq
  intro k hk
  simp only [formatXK, BitVec.getLsbD_and, BitVec.getLsbD_append]
  interval_cases k <;> simp

theorem formatXYN_masked (g : BitVec 4) (x y : RegNo) (n : RowCount) : formatXYN g x y n &&& 0xF000 = g ++ (0 : BitVec 12) := by
  apply BitVec.eq_of_getLsbD_eq
  intro k hk
  simp only [formatXYN, BitVec.getLsbD_and, BitVec.getLsbD_append]
  interval_cases k <;> simp

theorem formatXYS_masked (g : BitVec 4) (x y : RegNo) (n : RowCount) : formatXYN g x y n &&& 0xF00F = g ++ (0 : BitVec 8) ++ nibble n := by
  apply BitVec.eq_of_getLsbD_eq
  intro k hk
  simp only [formatXYN, BitVec.getLsbD_and, BitVec.getLsbD_append]
  interval_cases k <;> simp
theorem cls : Statement .cls := rfl

theorem ret : Statement .ret := rfl

theorem jp (nnn : Addr12) : Statement (.jp nnn) := by
  exact formatA_masked _ nnn

theorem call (nnn : Addr12) : Statement (.call nnn) := by
  exact formatA_masked _ nnn

theorem seByte (x : RegNo) (nn : Byte) : Statement (.seByte x nn) := by
  exact formatXK_masked _ x nn

theorem sneByte (x : RegNo) (nn : Byte) : Statement (.sneByte x nn) := by
  exact formatXK_masked _ x nn

theorem seReg (x y : RegNo) : Statement (.seReg x y) := by
  exact formatXYN_masked _ x y _

theorem ldByte (x : RegNo) (nn : Byte) : Statement (.ldByte x nn) := by
  exact formatXK_masked _ x nn

theorem addByte (x : RegNo) (nn : Byte) : Statement (.addByte x nn) := by
  exact formatXK_masked _ x nn

theorem ldReg (x y : RegNo) : Statement (.ldReg x y) := by
  exact formatXYS_masked _ x y _

theorem orReg (x y : RegNo) : Statement (.orReg x y) := by
  exact formatXYS_masked _ x y _

theorem andReg (x y : RegNo) : Statement (.andReg x y) := by
  exact formatXYS_masked _ x y _

theorem xorReg (x y : RegNo) : Statement (.xorReg x y) := by
  exact formatXYS_masked _ x y _

theorem addReg (x y : RegNo) : Statement (.addReg x y) := by
  exact formatXYS_masked _ x y _

theorem subReg (x y : RegNo) : Statement (.subReg x y) := by
  exact formatXYS_masked _ x y _

theorem shr (x y : RegNo) : Statement (.shr x y) := by
  exact formatXYS_masked _ x y _

theorem subnReg (x y : RegNo) : Statement (.subnReg x y) := by
  exact formatXYS_masked _ x y _

theorem shl (x y : RegNo) : Statement (.shl x y) := by
  exact formatXYS_masked _ x y _

theorem sneReg (x y : RegNo) : Statement (.sneReg x y) := by
  exact formatXYN_masked _ x y _

theorem ldI (nnn : Addr12) : Statement (.ldI nnn) := by
  exact formatA_masked _ nnn

theorem jpV0 (nnn : Addr12) : Statement (.jpV0 nnn) := by
  exact formatA_masked _ nnn

theorem rnd (x : RegNo) (nn : Byte) : Statement (.rnd x nn) := by
  exact formatXK_masked _ x nn

theorem drw (x y : RegNo) (n : RowCount) : Statement (.drw x y n) := by
  exact formatXYN_masked _ x y n

theorem skp (x : RegNo) : Statement (.skp x) := by
  exact formatXS_masked _ x _

theorem sknp (x : RegNo) : Statement (.sknp x) := by
  exact formatXS_masked _ x _

theorem ldVxDt (x : RegNo) : Statement (.ldVxDt x) := by
  exact formatXS_masked _ x _

theorem ldVxK (x : RegNo) : Statement (.ldVxK x) := by
  exact formatXS_masked _ x _

theorem ldDtVx (x : RegNo) : Statement (.ldDtVx x) := by
  exact formatXS_masked _ x _

theorem ldStVx (x : RegNo) : Statement (.ldStVx x) := by
  exact formatXS_masked _ x _

theorem addI (x : RegNo) : Statement (.addI x) := by
  exact formatXS_masked _ x _

theorem ldF (x : RegNo) : Statement (.ldF x) := by
  exact formatXS_masked _ x _

theorem ldB (x : RegNo) : Statement (.ldB x) := by
  exact formatXS_masked _ x _

theorem storeRegs (x : RegNo) : Statement (.storeRegs x) := by
  exact formatXS_masked _ x _

theorem loadRegs (x : RegNo) : Statement (.loadRegs x) := by
  exact formatXS_masked _ x _

end Sys2Proof.Laws.OpcodePattern
end

