-- ==== Sys2Proof/Laws/Step.lean ====
section
/-! SUPPORT. What one step can do, said once: one case per event. -/

namespace Sys2Proof.Machine

theorem whenRunning_next {s t : State} {r : Result} (h : whenRunning s r = .next t) :
    s.status = .running ∧ r = .next t := by
  unfold whenRunning at h
  split at h
  · exact ⟨by assumption, h⟩
  · simp at h
  · simp at h

theorem whenRunning_fault {s : State} {r : Result} {f : Fault} (h : whenRunning s r = .fault f) :
    (s.status = .running ∧ r = .fault f) ∨ s.status = .faulted f := by
  unfold whenRunning at h
  split at h
  · exact .inl ⟨by assumption, h⟩
  · simp_all
  · simp at h

@[simp] theorem whenRunning_running {s : State} {r : Result} (h : s.status = .running) : whenRunning s r = r := by
  simp [whenRunning, h]

/-- An instruction step that goes on fetched a word that decodes, and ran its instruction. -/
theorem instructionStep_next {s t : State} (h : instructionStep s = .next t) :
    ∃ w i, fetch s = .ok w ∧ decodeWord w = .ok i ∧ exec i s = .next t := by
  unfold instructionStep at h
  split at h
  · simp [raise] at h
  · rename_i w hw
    split at h
    · simp [raise] at h
    · rename_i i hi
      exact ⟨w, i, hw, hi, h⟩

/-- The event that a step performs and what is left of the schedule. -/
def nextEvent (s : State) : HostEvent × State :=
  match s.schedule with
  | [] => (.step, s)
  | e :: rest => (e, { s with schedule := rest })

theorem step_eq (s : State) : step s = performEvent (nextEvent s).1 (nextEvent s).2 := by
  unfold step nextEvent
  cases s.schedule <;> rfl

/-- The state an event is performed on differs from the state before in its schedule only. -/
theorem nextEvent_state (s : State) : ∃ l, (nextEvent s).2 = { s with schedule := l } := by
  unfold nextEvent
  split
  · exact ⟨s.schedule, rfl⟩
  · exact ⟨_, rfl⟩

theorem step_of_StepComesNext {s : State} {rest : List HostEvent} (h : StepComesNext s rest) :
    step s = instructionStep { s with schedule := rest } := by
  obtain ⟨hr, (⟨h1, rfl⟩ | h1)⟩ := h
  · have hs : ({ s with schedule := [] } : State) = s := by rw [← h1]
    simp only [step, h1, performEvent, hs, whenRunning_running hr]
  · have hr' : ({ s with schedule := rest } : State).status = .running := hr
    simp only [step, h1, performEvent, whenRunning_running hr']

@[simp] theorem fetch_schedule (s : State) (l : List HostEvent) : fetch { s with schedule := l } = fetch s := rfl

theorem fetch_ok {s : State} (h : s.pc.value.toNat ≤ 4094) :
    fetch s = .ok (s.byteAt s.pc.value.toNat ++ s.byteAt (s.pc.value.toNat + 1)) :=
  s.memRead2_ok (by omega)

theorem fetch_error {s : State} (h : 4094 < s.pc.value.toNat) : fetch s = .error (max s.pc.value.toNat 4096) :=
  s.memRead2_error (by omega)

/-- An event that answers a next state does one of six things. -/
theorem performEvent_next {e : HostEvent} {s t : State} (h : performEvent e s = .next t) :
    (e = .step ∧ s.status = .running ∧ ∃ w i, fetch s = .ok w ∧ decodeWord w = .ok i ∧ exec i s = .next t) ∨
    (e = .tick ∧ s.status = .running ∧ t = s.tick) ∨
    (∃ l, e = .keys l ∧ t = { s with keys := l }) ∨
    (e = .redrawAck ∧ t = { s with fbDirty := false }) ∨
    (e = .quit ∧ t = { s with status := quitStatus s.status }) ∨
    (∃ rom, e = .reset rom ∧ rom.length ≤ 3584 ∧
      t = { State.initial s.params with
        mem := Memory.setBytes s.params.font [] 0x200 rom
        keys := s.keys
        schedule := s.schedule
        draws := s.draws }) := by
  cases e with
  | step =>
    obtain ⟨h1, h2⟩ := whenRunning_next h
    exact .inl ⟨rfl, h1, instructionStep_next h2⟩
  | tick =>
    obtain ⟨h1, h2⟩ := whenRunning_next h
    exact .inr (.inl ⟨rfl, h1, by simpa using h2.symm⟩)
  | keys l => exact .inr (.inr (.inl ⟨l, rfl, by simpa [performEvent] using h.symm⟩))
  | redrawAck => exact .inr (.inr (.inr (.inl ⟨rfl, by simpa [performEvent] using h.symm⟩)))
  | quit => exact .inr (.inr (.inr (.inr (.inl ⟨rfl, by simpa [performEvent] using h.symm⟩))))
  | reset rom =>
    refine .inr (.inr (.inr (.inr (.inr ⟨rom, rfl, ?_⟩))))
    simp only [performEvent, resetEvent] at h
    split at h
    · rename_i hw
      exact ⟨of_decide_eq_true hw, by simpa [Config.loadBase] using h.symm⟩
    · simp at h

end Sys2Proof.Machine
end

