-- ==== Sys2Proof/Tests/Slice0.lean ====
section
/-! SUPPORT. Tests: the checks of WellFormed, one word of every instruction written out from R66, single steps from the
vectors of spec/95_test_vectors.md (T and S numbers), and a witness for the hypotheses of every obligation. -/

namespace Sys2Proof.Tests

open Sys2Proof.Machine

/-! ### Helpers -/

/-- A fact about the next state of a result, where there is one. -/
def seen {α : Type} (r : Result) (f : State → α) : Option α :=
  match r with
  | .next t => some (f t)
  | _ => none

/-- The fault of a result, where there is one. -/
def faulted (r : Result) : Option Fault :=
  match r with
  | .fault f => some f
  | _ => none

/-- The machine after reset with a word at 0x200 and values in V0, V1 and VF (the convention of the vectors). -/
def ready (w : Nat) (v0 v1 vf : Int := 0) : State :=
  (((State.reset.withFetchWord 16 w).setV 0 v0).setV 1 v1).setV VF vf

/-- The same machine with a value in I and bytes in memory from there. -/
def pointed (s : State) (i : Nat) (bytes : List Byte := []) : State :=
  let s1 := s.setI i
  { s1 with mem := Memory.setBytes s1.params.font s1.mem i bytes }

/-- The same machine with other key levels. -/
def keyed (s : State) (keys : BitVec 16) : State := { s with keys := keys }

/-- The same machine that shifts Vy. -/
def shiftingY (s : State) : State := { s with params := { s.params with shiftSrc := .vy } }

/-- The same machine with events to come. -/
def scheduled (s : State) (events : List HostEvent) : State := { s with schedule := events }

/-- V0, V1 and VF. -/
def v01f (s : State) : Nat × Nat × Nat := (s.V 0, s.V 1, s.V VF)

/-- The values of PC and SP. -/
def pcsp (s : State) : Nat × Nat := (s.pc.value.toNat, s.sp.value.toNat)

/-- Bytes of memory from an address. -/
def bytesFrom (s : State) (a n : Nat) : List Nat := (List.range n).map (fun k => (s.byteAt (a + k)).toNat)

/-! ### WellFormed refuses what is ill-formed -/

theorem test_params_default_accepted : defaultParams.wf = true := by decide

theorem test_params_odd_stack_base_refused :
    Config.Params.wf { defaultParams with stackBase := 0x51 } = false := by decide

theorem test_params_stack_base_in_font_refused :
    Config.Params.wf { defaultParams with stackBase := 0x4E } = false := by decide

theorem test_params_stack_base_above_FE_refused :
    Config.Params.wf { defaultParams with stackBase := 0xFF } = false := by decide

theorem test_image_of_3584_bytes_accepted : imageWf (List.replicate 3584 0) = true := by
  rw [imageWf, List.length_replicate]; decide

theorem test_image_of_3585_bytes_refused : imageWf (List.replicate 3585 0) = false := by
  rw [imageWf, List.length_replicate]; decide

theorem test_memory_unsorted_refused : Memory.wf defaultFont [(0x301, 1), (0x300, 1)] = false := by decide

theorem test_memory_repeated_address_refused : Memory.wf defaultFont [(0x300, 1), (0x300, 2)] = false := by decide

theorem test_memory_entry_of_unlisted_value_refused :
    Memory.wf defaultFont [(0x300, 0)] = false ∧ Memory.wf defaultFont [(0, 0xF0)] = false := by decide

theorem test_memory_address_4096_refused : Memory.wf defaultFont [(4096, 1)] = false := by decide

theorem test_memory_write_of_unlisted_value_unlists :
    Memory.set defaultFont (Memory.set defaultFont [] 0x300 7) 0x300 0 = [] := by decide

/-! ### One word of every instruction, from the patterns of R66 -/

theorem test_decode_cls : decodeTableWord 16 0x00E0 = some (.cls) := by decide

theorem test_decode_ret : decodeTableWord 16 0x00EE = some (.ret) := by decide

theorem test_decode_jp : decodeTableWord 16 0x1204 = some (.jp 0x204) := by decide

theorem test_decode_call : decodeTableWord 16 0x2ABC = some (.call 0xABC) := by decide

theorem test_decode_seByte : decodeTableWord 16 0x332A = some (.seByte 3 0x2A) := by decide

theorem test_decode_sneByte : decodeTableWord 16 0x432B = some (.sneByte 3 0x2B) := by decide

theorem test_decode_seReg : decodeTableWord 16 0x5120 = some (.seReg 1 2) := by decide

theorem test_decode_ldByte : decodeTableWord 16 0x6A55 = some (.ldByte 10 0x55) := by decide

theorem test_decode_addByte : decodeTableWord 16 0x77FE = some (.addByte 7 0xFE) := by decide

theorem test_decode_ldReg : decodeTableWord 16 0x81E0 = some (.ldReg 1 14) := by decide

theorem test_decode_orReg : decodeTableWord 16 0x82D1 = some (.orReg 2 13) := by decide

theorem test_decode_andReg : decodeTableWord 16 0x83C2 = some (.andReg 3 12) := by decide

theorem test_decode_xorReg : decodeTableWord 16 0x84B3 = some (.xorReg 4 11) := by decide

theorem test_decode_addReg : decodeTableWord 16 0x85A4 = some (.addReg 5 10) := by decide

theorem test_decode_subReg : decodeTableWord 16 0x8695 = some (.subReg 6 9) := by decide

theorem test_decode_shr : decodeTableWord 16 0x8786 = some (.shr 7 8) := by decide

theorem test_decode_subnReg : decodeTableWord 16 0x8877 = some (.subnReg 8 7) := by decide

theorem test_decode_shl : decodeTableWord 16 0x896E = some (.shl 9 6) := by decide

theorem test_decode_sneReg : decodeTableWord 16 0x9A50 = some (.sneReg 10 5) := by decide

theorem test_decode_ldI : decodeTableWord 16 0xA300 = some (.ldI 0x300) := by decide

theorem test_decode_jpV0 : decodeTableWord 16 0xB4FE = some (.jpV0 0x4FE) := by decide

theorem test_decode_rnd : decodeTableWord 16 0xC10F = some (.rnd 1 0x0F) := by decide

theorem test_decode_drw : decodeTableWord 16 0xD125 = some (.drw 1 2 5) := by decide

theorem test_decode_skp : decodeTableWord 16 0xE49E = some (.skp 4) := by decide

theorem test_decode_sknp : decodeTableWord 16 0xE5A1 = some (.sknp 5) := by decide

theorem test_decode_ldVxDt : decodeTableWord 16 0xF107 = some (.ldVxDt 1) := by decide

theorem test_decode_ldVxK : decodeTableWord 16 0xF30A = some (.ldVxK 3) := by decide

theorem test_decode_ldDtVx : decodeTableWord 16 0xF215 = some (.ldDtVx 2) := by decide

theorem test_decode_ldStVx : decodeTableWord 16 0xF618 = some (.ldStVx 6) := by decide

theorem test_decode_addI : decodeTableWord 16 0xFF1E = some (.addI 15) := by decide

theorem test_decode_ldF : decodeTableWord 16 0xF829 = some (.ldF 8) := by decide

theorem test_decode_ldB : decodeTableWord 16 0xF933 = some (.ldB 9) := by decide

theorem test_decode_storeRegs : decodeTableWord 16 0xF255 = some (.storeRegs 2) := by decide

theorem test_decode_loadRegs : decodeTableWord 16 0xFE65 = some (.loadRegs 14) := by decide

theorem test_decode_aliases :
    decodeTableWord 16 0x0000 = some .cls ∧ decodeTableWord 16 0x0AB0 = some .cls ∧
    decodeTableWord 16 0x0ABE = some .ret ∧ decodeTableWord 16 0x512F = some (.seReg 1 2) ∧
    decodeTableWord 16 0x9127 = some (.sneReg 1 2) := by decide

/-- The unknown words that spec/95_test_vectors.md section 2.1 lists. -/
theorem test_decode_unknown_words :
    [0x0001, 0x00E1, 0x00FF, 0x0123, 0x8008, 0x801F, 0x8ABD, 0xE000, 0xE09F, 0xE1A0, 0xF000, 0xF00B, 0xF030, 0xF075,
      0xF085, 0xF1FF].all (fun w => decodeTableWord 16 w = none) = true := by decide

theorem test_decode_one_byte_is_truncated : decodeBytes [0x60] = .error (.truncated 1) := by decide

/-- S9: the first byte is the more significant one. -/
theorem test_encode_bytes_big_endian : encodeBytes (.drw 1 2 5) = [0xD1, 0x25] := by decide

/-! ### The Register contract: S1 -/

theorem test_regSet_260_and_minus_1 :
    regSet 8 260 = { value := 4, overflowed := true, borrowed := false } ∧
    regSet 8 (-1) = { value := 255, overflowed := false, borrowed := true } ∧
    regSet 8 256 = { value := 0, overflowed := true, borrowed := false } := by decide

theorem test_regAdd_wraps :
    regAdd (regSet 8 250) 10 = { value := 4, overflowed := true, borrowed := false } ∧
    regAdd (regSet 16 0xFFFF) 1 = { value := 0, overflowed := true, borrowed := false } := by decide

/-! ### Single steps from the vectors -/

/-- T1. -/
theorem test_T1_odd_pc_is_fetched :
    seen (step (((State.reset.setPC 0x201).withFetchWord 16 0x6A55))) (fun t => (t.V 10, t.pc.value.toNat)) = some (0x55, 0x203) := by decide

/-- T3. -/
theorem test_T3_fetch_at_FFF :
    faulted (step (State.reset.setPC 0xFFF)) = some (.addressRange ⟨0xFFF, 0, 0x1000⟩) := by decide

/-- T5. -/
theorem test_T5_fetch_at_10FE :
    faulted (step (State.reset.setPC 0x10FE)) = some (.addressRange ⟨0x10FE, 0, 0x10FE⟩) := by decide

/-- T6. -/
theorem test_T6_empty_image_clears :
    seen (step State.reset) (fun t => (t.fbDirty, t.pc.value.toNat)) = some (true, 0x202) := by decide

/-- Section 2.1, unknown opcodes. -/
theorem test_unknown_word_faults :
    faulted (step (ready 0x8ABD)) = some (.unknownOpcode ⟨0x200, 0x8ABD, 0x8ABD⟩) := by decide

/-- T20. -/
theorem test_T20_jump_to_self :
    seen (step (ready 0x1200)) pcsp = some (0x200, 0x50) := by decide

/-- T23. -/
theorem test_T23_call :
    seen (step (ready 0x2ABC)) (fun t => (pcsp t, bytesFrom t 0x50 2)) = some ((0xABC, 0x52), [0x02, 0x02]) := by decide

/-- T24. -/
theorem test_T24_call_wraps_SP :
    seen (step (((ready 0).setSP 0xFE).setPC 0xFFE |>.withFetchWord 16 0x2300)) (fun t => (pcsp t, bytesFrom t 0xFE 2)) =
      some ((0x300, 0x00), [0x10, 0x00]) := by decide

/-- T28. -/
theorem test_T28_return_with_nothing_pushed :
    seen (step (ready 0x00EE)) pcsp = some (0x8080, 0x4E) := by decide

/-- T29. -/
theorem test_T29_return_wraps_SP :
    seen (exec .ret (pointed ((ready 0x00EE).setSP 0) 0xFE [0x03, 0x21])) pcsp = some (0x321, 0xFE) := by decide

/-- T33. -/
theorem test_T33_skip_if_equal_byte :
    seen (step (ready 0x3F01 0 0 1)) pcsp = some (0x204, 0x50) := by decide

/-- T34, T35. -/
theorem test_T34_T35_skip_if_not_equal_byte :
    seen (step (ready 0x4A00)) pcsp = some (0x202, 0x50) ∧ seen (step (ready 0x4A01)) pcsp = some (0x204, 0x50) := by decide

/-- T37 (with V0, V1) and T36. -/
theorem test_T37_T36_skip_if_equal_registers :
    seen (step (ready 0x5010 1 2)) pcsp = some (0x202, 0x50) ∧ seen (step (ready 0x5000 9)) pcsp = some (0x204, 0x50) := by decide

/-- T39 (with V0, V1) and T38. -/
theorem test_T39_T38_skip_if_different_registers :
    seen (step (ready 0x9010 1 2)) pcsp = some (0x204, 0x50) ∧ seen (step (ready 0x9000 9)) pcsp = some (0x202, 0x50) := by decide

/-- T41. -/
theorem test_T41_indexed_jump_is_not_reduced :
    seen (step (ready 0xBFFF 0xFF)) pcsp = some (0x10FE, 0x50) := by decide

/-- T50. -/
theorem test_T50_load_byte_into_VF :
    seen (step (ready 0x6FFF)) v01f = some (0, 0, 0xFF) := by decide

/-- T52. -/
theorem test_T52_add_byte_writes_no_carry :
    seen (step (ready 0x7001 0xFF 0 0x55)) v01f = some (0, 0, 0x55) := by decide

/-- T55. -/
theorem test_T55_assign :
    seen (step (ready 0x8010 1 0xAB 7)) v01f = some (0xAB, 0xAB, 7) := by decide

/-- T57. -/
theorem test_T57_or :
    seen (step (ready 0x8011 0x0F 0xF0 0x77)) v01f = some (0xFF, 0xF0, 0x77) := by decide

/-- The example of R104, VF as in T58. -/
theorem test_T58_and :
    seen (step (ready 0x8012 0xF0 0x3C 0x77)) v01f = some (0x30, 0x3C, 0x77) := by decide

/-- The example of R105, VF as in T59. -/
theorem test_T59_xor :
    seen (step (ready 0x8013 0xF0 0x3C 0x77)) v01f = some (0xCC, 0x3C, 0x77) := by decide

/-- T62. -/
theorem test_T62_add_carries :
    seen (step (ready 0x8014 0xFF 0xFF)) v01f = some (0xFE, 0xFF, 1) := by decide

/-- T67. -/
theorem test_T67_add_into_VF_loses_the_sum :
    seen (step (ready 0x8F14 0 0x20 0x10)) v01f = some (0, 0x20, 0) := by decide

/-- T71. -/
theorem test_T71_subtract_borrows :
    seen (step (ready 0x8015 0 1 1)) v01f = some (0xFF, 1, 0) := by decide

/-- T74. -/
theorem test_T74_subtract_into_VF :
    seen (step (ready 0x8F15 0 3 5)) v01f = some (0, 3, 1) := by decide

/-- T77. -/
theorem test_T77_reverse_subtract_borrows :
    seen (step (ready 0x8017 1 0 1)) v01f = some (0xFF, 0, 0) := by decide

/-- The example of R109. -/
theorem test_reverse_subtract_example :
    seen (step (ready 0x8017 4 10)) v01f = some (6, 10, 1) := by decide

/-- T90. -/
theorem test_T90_shift_right_both_sources :
    seen (step (ready 0x8016 0x81 0x02)) v01f = some (0x40, 0x02, 1) ∧
    seen (step (shiftingY (ready 0x8016 0x81 0x02))) v01f = some (0x01, 0x02, 0) := by decide

/-- T97. -/
theorem test_T97_shift_right_into_VF :
    seen (step (ready 0x8F16 0 0x04 0x03)) v01f = some (0, 4, 1) ∧
    seen (step (shiftingY (ready 0x8F16 0 0x04 0x03))) v01f = some (0, 4, 0) := by decide

/-- T93. -/
theorem test_T93_shift_left_both_sources :
    seen (step (ready 0x801E 0x80 0x7F)) v01f = some (0x00, 0x7F, 1) ∧
    seen (step (shiftingY (ready 0x801E 0x80 0x7F))) v01f = some (0xFE, 0x7F, 0) := by decide

/-- T110. -/
theorem test_T110_load_index :
    seen (step (ready 0xAFFF)) (fun t => t.i.value.toNat) = some 0x0FFF := by decide

/-- T112, T113. -/
theorem test_T112_T113_add_to_index :
    seen (step (pointed (ready 0xF01E 1 0 7) 0x0FFF)) (fun t => (t.i.value.toNat, t.V VF)) = some (0x1000, 7) ∧
    seen (step (pointed (ready 0xF01E 1) 0xFFFF)) (fun t => t.i.value.toNat) = some 0 := by decide

/-- T116. -/
theorem test_T116_glyph_address :
    seen (step (ready 0xF029 0x0F)) (fun t => t.i.value.toNat) = some 0x04B ∧
    seen (step (ready 0xF029 0xFF)) (fun t => t.i.value.toNat) = some 0x4FB := by decide

/-- T121 (with V0). -/
theorem test_T121_digits_at_the_top_of_memory :
    seen (step (pointed (ready 0xF033 128) 0xFFD)) (fun t => bytesFrom t 0xFFD 3) = some [1, 2, 8] := by decide

/-- T122, T124. -/
theorem test_T122_T124_digits_past_memory :
    faulted (step (pointed (ready 0xF033 123) 0xFFE)) = some (.addressRange ⟨0x200, 0xF033, 0x1000⟩) ∧
    faulted (step (pointed (ready 0xF033 123) 0xFFFF)) = some (.addressRange ⟨0x200, 0xF033, 0xFFFF⟩) := by decide

/-- T125. -/
theorem test_T125_store_one_register :
    seen (step (pointed (ready 0xF055 0xAA 0xBB) 0x400)) (fun t => (bytesFrom t 0x400 2, t.i.value.toNat)) =
      some ([0xAA, 0], 0x400) := by decide

/-- T127. -/
theorem test_T127_store_past_memory :
    faulted (step (pointed (ready 0xFF55) 0xFF1)) = some (.addressRange ⟨0x200, 0xFF55, 0x1000⟩) := by decide

/-- T129. -/
theorem test_T129_load_font_bytes :
    seen (step (pointed (ready 0xF165) 0)) v01f = some (0xF0, 0x90, 0) := by decide

/-- T131. -/
theorem test_T131_load_past_memory :
    faulted (step (pointed (ready 0xF265) 0xFFE)) = some (.addressRange ⟨0x200, 0xF265, 0x1000⟩) := by decide

/-- T144. -/
theorem test_T144_sprite_wraps_both_ways :
    seen (step (pointed (ready 0xD011 255 255) 0x300 [0xC0])) (fun t => (t.pixel 63 31, t.pixel 0 31, t.pixel 1 31, t.V VF)) =
      some (true, true, false, 0) := by decide

/-- T151. -/
theorem test_T151_old_VF_is_the_column :
    seen (step (pointed (ready 0xDF11 0 2 7) 0x300 [0x80])) (fun t => (t.pixel 7 2, t.V VF)) = some (true, 0) := by decide

/-- T146. -/
theorem test_collision_on_the_second_draw :
    seen (step (scheduled ({ pointed (ready 0xD011 10 10) 0x300 [0xC0] with
      fb := Framebuffer.set Framebuffer.clear 11 10 true }) [])) (fun t => (t.pixel 10 10, t.pixel 11 10, t.V VF)) =
      some (true, false, 1) := by decide

/-- T155. -/
theorem test_T155_clear_screen :
    seen (step ({ ready 0x00E0 0 0 3 with fb := Framebuffer.set Framebuffer.clear 63 31 true })) (fun t => (t.pixel 63 31, t.V VF)) =
      some (false, 3) := by decide

/-- T163. -/
theorem test_T163_skip_if_key_down :
    seen (step (keyed (ready 0xEF9E 0 0 15) 0x8000)) pcsp = some (0x204, 0x50) := by decide

/-- T165 (with V0). -/
theorem test_T165_key_code_is_not_masked :
    faulted (step (keyed (ready 0xE09E 0xFA) 0x0400)) = some (.keyCodeRange ⟨0x200, 0xE09E, 0xFA⟩) := by decide

/-- T166, T167 (with V0). -/
theorem test_T166_T167_skip_if_key_up :
    seen (step (keyed (ready 0xE0A1 10) 0x0400)) pcsp = some (0x202, 0x50) ∧ seen (step (ready 0xE0A1 10)) pcsp = some (0x204, 0x50) := by decide

/-- T169 (with V0). -/
theorem test_T169_hold :
    seen (step (ready 0xF00A 0x99)) (fun t => (t.V 0, t.pc.value.toNat)) = some (0x99, 0x200) := by decide

/-- T170 (with V0). -/
theorem test_T170_one_key_down :
    seen (step (keyed (ready 0xF00A 0x99) 0x0080)) (fun t => (t.V 0, t.pc.value.toNat, t.draws)) = some (7, 0x202, 0) := by decide

/-- T173. -/
theorem test_T173_read_delay_timer :
    seen (step ((ready 0xF107).setDT 0x3C)) (fun t => (t.V 1, t.dt.value.toNat)) = some (0x3C, 0x3C) := by decide

/-- T175, T178. -/
theorem test_T175_T178_set_timers :
    seen (step (ready 0xF015 0x3C)) (fun t => t.dt.value.toNat) = some 0x3C ∧
    seen (step (ready 0xF018 5)) (fun t => t.st.value.toNat) = some 5 := by decide

/-- T179, T180. -/
theorem test_T179_tick :
    seen (step (scheduled ((ready 0).setDT 2) [.tick])) (fun t => (t.dt.value.toNat, t.st.value.toNat, t.pc.value.toNat)) =
      some (1, 0, 0x200) := by decide

/-- T192. -/
theorem test_T192_reset_with_one_byte :
    seen (step (scheduled (ready 0x6005) [.reset [0x12]])) (fun t => (bytesFrom t 0x200 2, pcsp t)) =
      some ([0x12, 0], (0x200, 0x50)) := by decide

/-- T83: a random byte masked with 0, whatever the draw. -/
theorem test_T83_random_masked_with_zero : seen (step (ready 0xC100 0 0x55)) (fun t => t.V 1) = some 0 := by
  have h : seen (step (ready 0xC100 0 0x55)) (fun t => t.V 1) =
      some (regSet 8 ((Config.randomByte 0 &&& 0).toNat : Int)).value.toNat := rfl
  rw [h]
  simp [regSet]

/-- T171: with keys 2 and 9 down the code is 2 or 9, whichever the host chooses. -/
theorem test_T171_two_keys_down :
    (chooseKey (keyed (ready 0xF30A) 0x0204) 2 [9]).1 = 2 ∨ (chooseKey (keyed (ready 0xF30A) 0x0204) 2 [9]).1 = 9 := by
  have := (chooseKey_spec (keyed (ready 0xF30A) 0x0204) 2 [9]).1
  simpa using this

/-! ### A witness for the hypotheses of every obligation -/

/-- The word of an instruction matches its own row: a word for the hypothesis of each `EncodedBy` and of
`OpcodeMapSelectsTheInstruction`. -/
theorem test_witness_words_match_their_rows :
    [Instr.cls, .ret, .jp 0x204, .call 0xABC, .seByte 3 0x2A, .sneByte 3 0x2A, .seReg 1 2, .ldByte 10 0x55,
      .addByte 0 0xFF, .ldReg 0 1, .orReg 0 1, .andReg 0 1, .xorReg 0 1, .addReg 0 1, .subReg 0 1, .shr 0 1,
      .subnReg 0 1, .shl 0 1, .sneReg 1 2, .ldI 0x300, .jpV0 0x300, .rnd 1 0x0F, .drw 1 2 5, .skp 4, .sknp 4,
      .ldVxDt 1, .ldVxK 1, .ldDtVx 1, .ldStVx 1, .addI 1, .ldF 1, .ldB 1, .storeRegs 2, .loadRegs 2].all
      (fun i => encode i &&& (opcodeRow i).mask = (opcodeRow i).pattern) = true := by decide

theorem test_witness_OpcodeMapSelectsTheInstruction : decodeWord 0xD125 = .ok (.drw 1 2 5) := by decide

theorem test_witness_AliasWordsDecodeAsTheCanonicalOne :
    (0x0FF0 : Word) &&& 0xF00F = 0x0000 ∧ (0x0FFE : Word) &&& 0xF00F = 0x000E ∧ (0x5FFF : Word) &&& 0xF000 = 0x5000 ∧
    (0x900F : Word) &&& 0xF000 = 0x9000 ∧
    decodeWord 0x81E0 = .ok (.ldReg 1 14) ∧ groupOf 0x81E0 ≠ 0x0 ∧ groupOf 0x81E0 ≠ 0x5 ∧ groupOf 0x81E0 ≠ 0x9 := by
  decide

theorem test_witness_UnknownOpcodeIsFatal :
    StepComesNext (ready 0x8008) [] ∧ fetch (ready 0x8008) = .ok 0x8008 ∧ unknownWord 0x8008 = true :=
  ⟨⟨rfl, .inl ⟨rfl, rfl⟩⟩, by decide, by decide⟩

/-- Each range of `MemoryAccessContract` at its boundary. -/
theorem test_witness_MemoryAccessContract :
    (4095 < 4096 ∧ State.reset.memRead1 4095 = .ok 0) ∧ (4096 ≤ 4096 ∧ State.reset.memRead1 4096 = .error 4096) ∧
    (4094 + 1 < 4096 ∧ State.reset.memRead2 4094 = .ok 0) ∧
    (4096 ≤ 4095 + 1 ∧ State.reset.memRead2 4095 = .error 4096 ∧ State.reset.memRead2 4097 = .error 4097) := by decide

theorem test_witness_CanonicalMemoryIsUnique :
    ∃ m m' : Memory, m = [(0x300, 7)] ∧ m' = Memory.set defaultFont [] 0x300 7 ∧
      Memory.wf defaultFont m = true ∧ Memory.wf defaultFont m' = true ∧
      ∀ a, a < 4096 → Memory.get defaultFont m a = Memory.get defaultFont m' a :=
  ⟨_, _, rfl, rfl, by decide, by decide, fun _ _ => rfl⟩

/-- The last PC that fetches and the first that does not. -/
theorem test_witness_FetchIsBigEndianAndRangeChecked :
    (State.reset.setPC 4094).pc.value.toNat ≤ 4094 ∧ 4094 < (State.reset.setPC 4095).pc.value.toNat ∧
    StepComesNext (State.reset.setPC 4095) [] ∧
    StepComesNext (scheduled (State.reset.setPC 4095) [.step, .tick]) [.tick] :=
  ⟨by decide, by decide, ⟨rfl, .inl ⟨rfl, rfl⟩⟩, ⟨rfl, .inr rfl⟩⟩

theorem test_witness_StepRunsTheDecodedInstruction :
    StepComesNext (scheduled (ready 0x6005) [.step, .tick]) [.tick] ∧
    fetch (scheduled (ready 0x6005) [.step, .tick]) = .ok 0x6005 ∧ decodeWord 0x6005 = .ok (.ldByte 0 5) :=
  ⟨⟨rfl, .inr rfl⟩, by decide, by decide⟩

/-- A fault of each of the four kinds. -/
theorem test_witness_FaultRecordNamesTheInstruction :
    StepComesNext (State.reset.setPC 4095) [] ∧
    step (State.reset.setPC 4095) = .fault (.addressRange ⟨0xFFF, 0, 0x1000⟩) ∧
    StepComesNext (ready 0x8008) [] ∧ step (ready 0x8008) = .fault (.unknownOpcode ⟨0x200, 0x8008, 0x8008⟩) ∧
    StepComesNext (pointed (ready 0xD011) 0x1000) [] ∧
    step (pointed (ready 0xD011) 0x1000) = .fault (.addressRange ⟨0x200, 0xD011, 0x1000⟩) ∧
    StepComesNext (ready 0xE09E 16) [] ∧ step (ready 0xE09E 16) = .fault (.keyCodeRange ⟨0x200, 0xE09E, 16⟩) :=
  ⟨⟨rfl, .inl ⟨rfl, rfl⟩⟩, rfl, ⟨rfl, .inl ⟨rfl, rfl⟩⟩, rfl, ⟨rfl, .inl ⟨rfl, rfl⟩⟩, rfl, ⟨rfl, .inl ⟨rfl, rfl⟩⟩, rfl⟩

/-- Each kind of fault of `OnlyTheseInstructionsFault`, at its boundary. -/
theorem test_witness_OnlyTheseInstructionsFault :
    exec (.drw 0 1 2) (pointed (ready 0) 4095) = .fault (.addressRange ⟨0x200, 0xD012, 4096⟩) ∧
    exec (.ldB 0) (pointed (ready 0) 4094) = .fault (.addressRange ⟨0x200, 0xF033, 4096⟩) ∧
    exec (.storeRegs 1) (pointed (ready 0) 4095) = .fault (.addressRange ⟨0x200, 0xF155, 4096⟩) ∧
    exec (.loadRegs 0) (pointed (ready 0) 4096) = .fault (.addressRange ⟨0x200, 0xF065, 4096⟩) ∧
    exec (.skp 0) (ready 0 16) = .fault (.keyCodeRange ⟨0x200, 0xE09E, 16⟩) ∧
    exec (.sknp 0) (ready 0 255) = .fault (.keyCodeRange ⟨0x200, 0xE0A1, 255⟩) :=
  ⟨rfl, rfl, rfl, rfl, rfl, rfl⟩

/-- A next state for each clause of `ProgramCounterAfterAnInstruction`. -/
theorem test_witness_ProgramCounterAfterAnInstruction :
    (∃ t, exec (.jp 0x204) (ready 0) = .next t) ∧ (∃ t, exec (.call 0x204) (ready 0) = .next t) ∧
    (∃ t, exec (.jpV0 0x204) (ready 0) = .next t) ∧ (∃ t, exec .ret (ready 0) = .next t) ∧
    (∃ t, exec (.seByte 0 7) (ready 0 7) = .next t ∧ skips (.seByte 0 7) = true ∧ skipHolds (ready 0 7) (.seByte 0 7)) ∧
    (∃ t, exec (.skp 0) (ready 0 15) = .next t ∧ skips (.skp 0) = true ∧ ¬ skipHolds (ready 0 15) (.skp 0)) ∧
    (∃ t, exec (.ldVxK 0) (ready 0) = .next t ∧ (ready 0).keys = 0) ∧
    (∃ t, exec (.ldVxK 0) (keyed (ready 0) 0x8000) = .next t ∧ (keyed (ready 0) 0x8000).keys ≠ 0) ∧
    (∃ t, exec (.addReg 0 1) (ready 0) = .next t ∧ jumps (.addReg 0 1) = false ∧ skips (.addReg 0 1) = false ∧
      ∀ x, Instr.addReg 0 1 ≠ .ldVxK x) :=
  ⟨⟨_, rfl⟩, ⟨_, rfl⟩, ⟨_, rfl⟩, ⟨_, rfl⟩, ⟨_, rfl, rfl, rfl⟩, ⟨_, rfl, rfl, by show ¬ ((ready 0 15).keyDown ((ready 0 15).V 0) = true); decide⟩, ⟨_, rfl, rfl⟩,
    ⟨_, rfl, by decide⟩, ⟨_, rfl, rfl, rfl, nofun⟩⟩

/-- A destination that is not VF, for the statements of the flag-writing instructions. -/
theorem test_witness_AddWithCarryToVF : (0 : RegNo) ≠ VF := by decide

theorem test_witness_SubtractWithNotBorrowToVF : (14 : RegNo) ≠ VF := by decide

theorem test_witness_AddThenSubtractRestoresVx : (0 : RegNo) ≠ 1 ∧ (0 : RegNo) ≠ VF ∧ (1 : RegNo) ≠ VF := by decide

/-- The source of the shifts under both settings. -/
theorem test_witness_ShiftsByOne :
    (0x81 = (if (ready 0 0x81 2).params.shiftSrc = .vx then (ready 0 0x81 2).V 0 else (ready 0 0x81 2).V 1)) ∧
    (2 = (if (shiftingY (ready 0 0x81 2)).params.shiftSrc = .vx then (shiftingY (ready 0 0x81 2)).V 0
      else (shiftingY (ready 0 0x81 2)).V 1)) ∧ (0 : RegNo) ≠ VF := by decide

theorem test_witness_RandomByteIsMasked : (0x0F : Byte).getLsbD 4 = false ∧ (0x0F : Byte).getLsbD 8 = false := by decide

/-- The largest key code and the smallest value that is none. -/
theorem test_witness_SkipsOnKeys : (ready 0 15).V 0 ≤ 15 ∧ 15 < (ready 0 16).V 0 := by decide

theorem test_witness_DecimalDigitsAreStored :
    (pointed (ready 0) 4093).i.value.toNat + 2 < 4096 ∧ 4096 ≤ (pointed (ready 0) 4094).i.value.toNat + 2 := by decide

theorem test_witness_RegistersAreStored :
    (pointed (ready 0) 4080).i.value.toNat + (15 : RegNo).val < 4096 ∧
    4096 ≤ (pointed (ready 0) 4081).i.value.toNat + (15 : RegNo).val ∧ (15 : RegNo) ≤ 15 := by decide

theorem test_witness_RegistersAreLoaded :
    (pointed (ready 0) 4095).i.value.toNat + (0 : RegNo).val < 4096 ∧
    4096 ≤ (pointed (ready 0) 4096).i.value.toNat + (0 : RegNo).val ∧ (0 : RegNo) ≤ 0 := by decide

/-- `Fx55` at 0x200 with I = 0x202: the two registers stored are the next instruction. -/
theorem test_witness_StoredCodeIsRunByTheNextStep :
    ∃ t, exec (.storeRegs 1) (pointed (ready 0xF155 0x60 0x05) 0x202) = .next t ∧ (1 : RegNo) ≤ 1 ∧
      (1 : RegNo).val = (0 : RegNo).val + 1 ∧
      t.pc.value.toNat = (pointed (ready 0xF155 0x60 0x05) 0x202).i.value.toNat + (0 : RegNo).val ∧
      StepComesNext t [] ∧
      decodeWord (((pointed (ready 0xF155 0x60 0x05) 0x202).reg 0).value ++
        ((pointed (ready 0xF155 0x60 0x05) 0x202).reg 1).value) = .ok (.ldByte 0 5) :=
  ⟨_, rfl, by decide, by decide, by decide, ⟨rfl, .inl ⟨rfl, rfl⟩⟩, by decide⟩

/-- A sprite of one row, 0x80 at (0, 0): it covers (0, 0) and not (1, 0). -/
theorem test_witness_SpriteDrawFlipsCoveredPixels :
    ((0 : RowCount).val = 0) ∧ ((pointed (ready 0) 4095 [0x80]).i.value.toNat + (1 : RowCount).val ≤ 4096) ∧
    SpriteCovers (pointed (ready 0) 4095 [0x80]) 0 0 1 0 0 ∧
    ¬ SpriteCovers (pointed (ready 0) 4095 [0x80]) 0 0 1 1 0 ∧
    (∃ px py, SpriteCovers (pointed (ready 0) 4095 [0x80]) 0 0 1 px py ∧ (pointed (ready 0) 4095 [0x80]).pixel px py = false) ∧
    1 ≤ (1 : RowCount).val ∧ 4096 < (pointed (ready 0) 4096).i.value.toNat + (1 : RowCount).val := by
  have c : SpriteCovers (pointed (ready 0) 4095 [0x80]) 0 0 1 0 0 :=
    ⟨0, 0, by decide, by decide, by decide, by decide, by decide⟩
  refine ⟨rfl, by decide, c, ?_, ⟨0, 0, c, by decide⟩, by decide, by decide⟩
  rintro ⟨j, i, hj, hi, hb, hx, hy⟩
  obtain rfl : j = 0 := by omega
  have hx' : (0 + i) % 64 = 1 := hx
  obtain rfl : i = 1 := by omega
  exact absurd hb (by decide)

/-- The same sprite over a lit pixel: a collision. -/
theorem test_witness_SpriteDrawFlipsCoveredPixels_collision :
    ∃ px py, SpriteCovers { pointed (ready 0) 0x300 [0x80] with fb := Framebuffer.set Framebuffer.clear 0 0 true } 0 0 1 px py ∧
      State.pixel { pointed (ready 0) 0x300 [0x80] with fb := Framebuffer.set Framebuffer.clear 0 0 true } px py = true :=
  ⟨0, 0, ⟨0, 0, by decide, by decide, by decide, by decide, by decide⟩, by decide⟩

theorem test_witness_DrawingTwiceRestoresTheScreen :
    (0 : RegNo) ≠ VF ∧ (1 : RegNo) ≠ VF ∧ (pointed (ready 0) 4081).i.value.toNat + (15 : RowCount).val ≤ 4096 := by decide

theorem test_witness_WaitForKey : (ready 0).keys = 0 ∧ (keyed (ready 0) 0x0204).keys ≠ 0 := by decide

/-- One tick, three ticks, and a machine that does not run. -/
theorem test_witness_TickLowersBothTimers :
    ((scheduled (ready 0) [.tick]).status = .running ∧ (scheduled (ready 0) [.tick]).schedule = .tick :: []) ∧
    ((scheduled (ready 0) [.tick, .tick, .tick, .step]).status = .running ∧
      (scheduled (ready 0) [.tick, .tick, .tick, .step]).schedule = List.replicate 3 .tick ++ [.step]) ∧
    ({ ready 0 with status := .quit, schedule := [.tick] } : State).status ≠ .running := by decide

theorem test_witness_KeysRedrawAckAndQuitEvents :
    (scheduled (ready 0) [.keys 5]).schedule = .keys 5 :: [] ∧
    (scheduled (ready 0) [.redrawAck]).schedule = .redrawAck :: [] ∧
    (scheduled (ready 0) [.quit]).schedule = .quit :: [] ∧ (scheduled (ready 0) [.quit]).status = .running := by decide

/-- The longest image that is accepted, the shortest that is not, and a byte and an address of each clause. -/
theorem test_witness_ResetLoadsTheImage :
    (scheduled (ready 0) [.reset [0x12]]).schedule = .reset [0x12] :: [] ∧ ([0x12] : List Byte).length ≤ 3584 ∧
    (List.replicate 3584 (0 : Byte)).length ≤ 3584 ∧ 3584 < (List.replicate 3585 (0 : Byte)).length ∧
    0 < ([0x12] : List Byte).length ∧ 79 < 80 ∧ (80 ≤ 80 ∧ 80 < 0x200) ∧ 0x200 + ([0x12] : List Byte).length ≤ 0x201 := by
  simp only [List.length_replicate]
  decide

theorem test_witness_StoppedMachineStaysStopped :
    (ready 0).schedule = [] ∧ (scheduled (ready 0) [.step]).schedule = .step :: [] ∧
    (scheduled (ready 0) [.tick]).schedule = .tick :: [] ∧
    ({ ready 0 with status := .faulted (.loadError 3585) } : State).status = .faulted (.loadError 3585) ∧
    ({ ready 0 with status := .quit } : State).status = .quit := by decide

/-- The bounds of an admissible `STACK_BASE`. -/
theorem test_witness_InvariantHoldsAtReset :
    Config.Params.wf { defaultParams with stackBase := 0x50 } = true ∧
    Config.Params.wf { defaultParams with stackBase := 0xFE } = true := by decide

theorem test_witness_StepKeepsTheInvariant : Inv (ready 0x8015 0 1) ∧ ∃ t, step (ready 0x8015 0 1) = .next t :=
  ⟨{ params := by decide, memory := by decide, stackEven := by decide,
     regFlags := by unfold Reg.oneFlag; decide, indexFlags := by unfold Reg.oneFlag; decide,
     pcFlags := by unfold Reg.oneFlag; decide, stackFlags := by unfold Reg.oneFlag; decide, delayFlags := by unfold Reg.oneFlag; decide, soundFlags := by unfold Reg.oneFlag; decide }, _, rfl⟩

theorem test_witness_RegistersChangeOnlyByTheirWriters :
    ∃ t, exec (.addReg 0 1) (ready 0) = .next t ∧ ¬ writesReg (.addReg 0 1) 1 :=
  ⟨_, rfl, by show ¬ ((1 : RegNo) = 0 ∨ (1 : RegNo) = VF); decide⟩

/-- The addresses just outside a push, a digit store and a register store. -/
theorem test_witness_MemoryChangesOnlyByStores :
    (∃ t, exec (.call 0x300) (ready 0) = .next t ∧ ¬ storesTo (ready 0) (.call 0x300) 0x52) ∧
    (∃ t, exec (.ldB 0) (pointed (ready 0) 0x300) = .next t ∧ ¬ storesTo (pointed (ready 0) 0x300) (.ldB 0) 0x303) ∧
    (∃ t, exec (.storeRegs 0) (pointed (ready 0) 0x300) = .next t ∧
      ¬ storesTo (pointed (ready 0) 0x300) (.storeRegs 0) 0x301) := by
  refine ⟨⟨_, rfl, ?_⟩, ⟨_, rfl, ?_⟩, ⟨_, rfl, ?_⟩⟩
  · show ¬ (80 ≤ 0x52 ∧ 0x52 < 80 + 2); decide
  · show ¬ (0x300 ≤ 0x303 ∧ 0x303 < 0x303); decide
  · show ¬ (0x300 ≤ 0x301 ∧ 0x301 < 0x301); decide

theorem test_witness_PointersAndTimersChangeOnlyByTheirWriters :
    (∃ t, exec (.ldByte 0 7) (ready 0) = .next t) ∧ (∃ t, exec (.call 0x300) (ready 0) = .next t) ∧
    (∃ t, exec .ret (ready 0) = .next t) ∧ (∀ nnn, Instr.ldByte 0 7 ≠ .ldI nnn) ∧ (∀ x, Instr.ldByte 0 7 ≠ .addI x) ∧
    (∀ x, Instr.ldByte 0 7 ≠ .ldF x) ∧ (∀ nnn, Instr.ldByte 0 7 ≠ .call nnn) ∧ Instr.ldByte 0 7 ≠ .ret ∧
    (∀ x, Instr.ldByte 0 7 ≠ .ldDtVx x) ∧ (∀ x, Instr.ldByte 0 7 ≠ .ldStVx x) :=
  ⟨⟨_, rfl⟩, ⟨_, rfl⟩, ⟨_, rfl⟩, nofun, nofun, nofun, nofun, nofun, nofun, nofun⟩

theorem test_witness_ScreenChangesOnlyByClearAndDraw :
    (∃ t, exec (.ldByte 0 7) (ready 0) = .next t) ∧ Instr.ldByte 0 7 ≠ .cls ∧
    (∀ x y n, Instr.ldByte 0 7 ≠ .drw x y n) ∧ (∃ t, exec .cls (ready 0) = .next t) ∧
    (∃ t, exec (.drw 0 1 0) (ready 0) = .next t) :=
  ⟨⟨_, rfl⟩, nofun, nofun, ⟨_, rfl⟩, ⟨_, rfl⟩⟩

theorem test_witness_InstructionsLeaveParametersAndInputs : ∃ t, exec (.loadRegs 15) (ready 0) = .next t := ⟨_, rfl⟩

end Sys2Proof.Tests
end

/-! ## What an instruction reads and writes

An instruction reads a `View` of the state, decides on a list of `Write`s or on a fault, and performs the writes.
`exec_eq` ties this reading to `exec`, once; the frames, the invariant and the noninterference claims are then facts about
single writes. -/

namespace Sys2Proof.Machine

/-- All that an instruction reads: no Register flag, no redraw mark, no sound timer, no run status and no schedule. -/
structure View where
  bits : RegNo → Byte
  index : Word
  pc : Word
  stack : Byte
  delay : Byte
  byteAt : Nat → Byte
  fb : Framebuffer
  shiftSrc : Config.ShiftSrc
  downKeys : List (Fin 16)
  keyDown : Nat → Bool
  draws : Nat

/-- The view of a state. -/
def State.view (s : State) : View :=
  { bits := s.bits
    index := s.i.value
    pc := s.pc.value
    stack := s.sp.value
    delay := s.dt.value
    byteAt := s.byteAt
    fb := s.fb
    shiftSrc := s.params.shiftSrc
    downKeys := s.downKeys
    keyDown := s.keyDown
    draws := s.draws }

/-- The value of `Vx`. -/
def View.V (o : View) (x : RegNo) : Nat := (o.bits x).toNat

/-- The source of the shifts (R114). -/
def View.shiftSource (o : View) (x y : RegNo) : Nat :=
  match o.shiftSrc with
  | .vx => o.V x
  | .vy => o.V y

/-- `n` bytes from I. -/
def View.bytesAtIndex (o : View) (n : Nat) : List Byte := (List.range' o.index.toNat n).map o.byteAt

/-- One write to the state. -/
inductive Write where
  | reg (x : RegNo) (v : Int)
  | index (v : Int)
  | pc (v : Int)
  | advance
  | stack (v : Int)
  | delay (v : Int)
  | sound (v : Int)
  | bytes (a : Nat) (bs : List Byte)
  | screen (fb : Framebuffer)
  | draw

/-- What a write does. -/
def Write.apply (s : State) : Write → State
  | .reg x v => s.setV x v
  | .index v => s.setI v
  | .pc v => s.setPC v
  | .advance => s.advance
  | .stack v => s.setSP v
  | .delay v => s.setDT v
  | .sound v => s.setST v
  | .bytes a bs => s.withBytes a bs
  | .screen fb => s.setScreen fb
  | .draw => s.nextDraw

/-- The writes that put bytes into registers in order (R125). -/
def regWrites (ks : List RegNo) (bs : List Byte) : List Write := List.zipWith (fun k b => .reg k (b.toNat : Int)) ks bs

/-- The writes of an instruction with a result and a flag (R16). -/
def flagWrites (x : RegNo) (result flag : Int) : List Write := [.reg x result, .reg VF flag, .advance]

/-- The writes of a skip (R85). -/
def skipWrites (condition : Bool) : List Write := if condition then [.advance, .advance] else [.advance]

/-- The writes of `Fx0A` (R143): none while no key is down. -/
def keyWrites (o : View) (x : RegNo) : List Write :=
  match o.downKeys with
  | [] => []
  | [key] => [.reg x key.val, .advance]
  | key :: other :: others =>
    [.draw, .reg x ((key :: other :: others).getD (Config.keyChoice o.draws % (others.length + 2)) key).val, .advance]

/-- What `Dxyn` draws onto the framebuffer (R132). -/
def View.blit (o : View) (x y : RegNo) (n : RowCount) : Blit :=
  blitRows (o.V x) (o.V y) 0 (o.bytesAtIndex n.val) { fb := o.fb, collided := false }

/-- The writes of an instruction that accesses `count` bytes from I, or the fault at the first address outside (R42). -/
def accessing (o : View) (i : Instr) (count : Nat) (writes : List Write) : Except Fault (List Write) :=
  if count = 0 ∨ o.index.toNat + count ≤ 4096 then .ok writes
  else .error (.addressRange { pc0 := o.pc, opcode := encode i, value := max o.index.toNat 4096 })

/-- The writes of a keypad skip, or the fault for a code above 15 (R154). -/
def keySkip (o : View) (i : Instr) (x : RegNo) (wanted : Bool) : Except Fault (List Write) :=
  if 15 < o.V x then .error (.keyCodeRange { pc0 := o.pc, opcode := encode i, value := o.V x })
  else .ok (skipWrites (o.keyDown (o.V x) == wanted))

/-- The word that a return pops from address `a` (R90). -/
def View.wordAt (o : View) (a : Nat) : Word := o.byteAt a ++ o.byteAt (a + 1)

/-- What an instruction decides on, from its view of the state: its writes in order, or its fault. -/
def plan (i : Instr) (o : View) : Except Fault (List Write) :=
  match i with
  | .cls => .ok [.screen Framebuffer.clear, .advance]
  | .ret =>
    let sp : Int := o.stack.toNat - 2
    .ok [.stack sp, .pc (o.wordAt (regSet 8 sp).value.toNat).toNat]
  | .jp nnn => .ok [.pc nnn.toNat]
  | .call nnn =>
    let target := o.pc + 2
    .ok [.bytes o.stack.toNat [highByte target, lowByte target], .stack (o.stack.toNat + 2), .pc nnn.toNat]
  | .seByte x nn => .ok (skipWrites (decide ((o.V x : Int) = nn.toNat)))
  | .sneByte x nn => .ok (skipWrites (decide ((o.V x : Int) ≠ nn.toNat)))
  | .seReg x y => .ok (skipWrites (decide (o.V x = o.V y)))
  | .sneReg x y => .ok (skipWrites (decide (o.V x ≠ o.V y)))
  | .ldByte x nn => .ok [.reg x nn.toNat, .advance]
  | .addByte x nn => .ok [.reg x (o.V x + nn.toNat), .advance]
  | .ldReg x y => .ok [.reg x (o.V y), .advance]
  | .orReg x y => .ok [.reg x (o.bits x ||| o.bits y).toNat, .advance]
  | .andReg x y => .ok [.reg x (o.bits x &&& o.bits y).toNat, .advance]
  | .xorReg x y => .ok [.reg x (o.bits x ^^^ o.bits y).toNat, .advance]
  | .addReg x y =>
    let sum : Int := o.V x + o.V y
    .ok (flagWrites x sum (regSet 8 sum).overflowed.toNat)
  | .subReg x y =>
    let difference : Int := o.V x - o.V y
    .ok (flagWrites x difference (1 - ((regSet 8 difference).borrowed.toNat : Int)))
  | .subnReg x y =>
    let difference : Int := o.V y - o.V x
    .ok (flagWrites x difference (1 - ((regSet 8 difference).borrowed.toNat : Int)))
  | .shr x y => .ok (flagWrites x ((o.shiftSource x y >>> 1 : Nat) : Int) (rightBitOut (o.shiftSource x y)))
  | .shl x y =>
    let doubled : Int := (o.shiftSource x y <<< 1 : Nat)
    .ok (flagWrites x doubled (regSet 8 doubled).overflowed.toNat)
  | .ldI nnn => .ok [.index nnn.toNat, .advance]
  | .jpV0 nnn => .ok [.pc (o.V 0 + nnn.toNat)]
  | .rnd x nn => .ok [.draw, .reg x (Config.randomByte o.draws &&& nn).toNat, .advance]
  | .drw x y n =>
    accessing o i n.val
      [.reg VF 0, .reg VF (collisionFlag (o.blit x y n).collided), .screen (o.blit x y n).fb, .advance]
  | .skp x => keySkip o i x true
  | .sknp x => keySkip o i x false
  | .ldVxDt x => .ok [.reg x o.delay.toNat, .advance]
  | .ldVxK x => .ok (keyWrites o x)
  | .ldDtVx x => .ok [.delay (o.V x), .advance]
  | .ldStVx x => .ok [.sound (o.V x), .advance]
  | .addI x => .ok [.index (o.index.toNat + o.V x), .advance]
  | .ldF x => .ok [.index (glyphAddress (o.V x)), .advance]
  | .ldB x => accessing o i 3 [.bytes o.index.toNat (decimalDigits (o.V x)), .advance]
  | .storeRegs x => accessing o i (x.val + 1) [.bytes o.index.toNat ((regsUpTo x).map o.bits), .advance]
  | .loadRegs x =>
    accessing o i (x.val + 1) (regWrites (regsUpTo x) (o.bytesAtIndex (x.val + 1)) ++ [.advance])

/-- The writes of a decision performed in order, or its fault. -/
def perform (s : State) : Except Fault (List Write) → Result
  | .ok writes => .next (writes.foldl Write.apply s)
  | .error f => .fault f

/-! ### The tie to `exec` -/

/-- Register loads in a row are register writes in a row. -/
theorem fillRegs_eq_writes : ∀ (ks : List RegNo) (bs : List Byte) (s : State),
    fillRegs s ks bs = (regWrites ks bs).foldl Write.apply s
  | [], _, _ => by simp [fillRegs, regWrites]
  | _ :: _, [], _ => by simp [fillRegs, regWrites]
  | k :: ks, b :: bs, s => by rw [fillRegs, fillRegs_eq_writes ks bs]; rfl

/-- A read of a run of bytes from I is an access to them. -/
theorem withAccess_readBytes (i : Instr) (s : State) (count : Nat) (go : List Byte → Result) (writes : List Write)
    (h : go (s.view.bytesAtIndex count) = .next (writes.foldl Write.apply s)) :
    withAccess i s (s.readBytes (s.ea 0) count) go = perform s (accessing s.view i count writes) := by
  have hea : s.ea 0 = s.view.index.toNat := rfl
  rw [hea]
  unfold accessing
  split
  · next hin =>
    rcases hin with rfl | hin
    · exact h
    · rw [s.readBytes_ok hin]; exact h
  · next hout =>
    rw [not_or] at hout
    rw [s.readBytes_error count (Nat.one_le_iff_ne_zero.2 hout.1) (Nat.not_le.1 hout.2)]
    rfl

/-- A store of a run of bytes from I is an access to them. -/
theorem withAccess_writeBytes (i : Instr) (s : State) (bs : List Byte) (hbs : bs ≠ []) :
    withAccess i s (s.writeBytes (s.ea 0) bs) endContinue =
      perform s (accessing s.view i bs.length [.bytes s.view.index.toNat bs, .advance]) := by
  have hea : s.ea 0 = s.view.index.toNat := rfl
  rw [hea]
  unfold accessing
  split
  · next hin =>
    have hin := hin.resolve_left (mt List.length_eq_zero_iff.1 hbs)
    rw [State.writeBytes_ok bs s hin]; rfl
  · next hout =>
    rw [not_or] at hout
    rw [State.writeBytes_error bs s hbs (Nat.not_le.1 hout.2)]
    rfl

theorem endContinue_skipIf (s : State) (c : Bool) : endContinue (s.skipIf c) = perform s (.ok (skipWrites c)) := by
  cases c <;> rfl

theorem skipOnKey_eq (i : Instr) (x : RegNo) (wanted : Bool) (s : State) :
    skipOnKey i x wanted s = perform s (keySkip s.view i x wanted) := by
  unfold keySkip
  split
  · next h => exact skipOnKey_error i wanted h
  · next h => rw [skipOnKey_ok i wanted (Nat.not_lt.1 h)]; exact endContinue_skipIf s _

theorem execLdVxK_eq (x : RegNo) (s : State) : execLdVxK x s = perform s (.ok (keyWrites s.view x)) := by
  have hv : s.view.downKeys = s.downKeys := rfl
  unfold execLdVxK keyWrites
  rw [hv]
  match s.downKeys with
  | [] => rfl
  | [_] => rfl
  | _ :: _ :: _ => rfl

/-- A call always completes: SP and SP + 1 lie in memory. -/
theorem execCall_eq (nnn : Addr12) (s : State) : execCall nnn s = perform s (plan (.call nnn) s.view) := by
  have := s.sp.value.isLt
  unfold execCall
  rw [s.memWrite2_ok _ (by omega)]
  rfl

/-- A return always completes: SP and SP + 1 lie in memory. -/
theorem execRet_eq (s : State) : execRet s = perform s (plan .ret s.view) := by
  have hsp := (regSet 8 ((s.sp.value.toNat : Int) - 2)).value.isLt
  have hread := (s.setSP (s.sp.value.toNat - 2)).memRead2_ok (Nat.lt_of_le_of_lt (Nat.succ_le_of_lt hsp) (by decide))
  exact congrArg (fun r => withAccess .ret s r
    (fun target => endJumped ((s.setSP (s.sp.value.toNat - 2)).setPC target.toNat))) hread

/-- The overflow flag read after a write is that write's. -/
@[simp] theorem overflowFlag_setV (s : State) (x : RegNo) (v : Int) :
    overflowFlag (s.setV x v) x = (regSet 8 v).overflowed.toNat := by simp [overflowFlag]

/-- The not-borrow read after a write is that write's. -/
@[simp] theorem notBorrowFlag_setV (s : State) (x : RegNo) (v : Int) :
    notBorrowFlag (s.setV x v) x = 1 - ((regSet 8 v).borrowed.toNat : Int) := by simp [notBorrowFlag]

/-- A result with its carry: both are writes of the result's own. -/
theorem resultThenOverflow_eq (s : State) (x : RegNo) (v : Int) :
    resultThenFlag s x v (fun s1 => overflowFlag s1 x) =
      perform s (.ok (flagWrites x v (regSet 8 v).overflowed.toNat)) := by
  rw [resultThenFlag_eq, overflowFlag_setV]; rfl

/-- A result with its not-borrow: both are writes of the result's own. -/
theorem resultThenNotBorrow_eq (s : State) (x : RegNo) (v : Int) :
    resultThenFlag s x v (fun s1 => notBorrowFlag s1 x) =
      perform s (.ok (flagWrites x v (1 - ((regSet 8 v).borrowed.toNat : Int)))) := by
  rw [resultThenFlag_eq, notBorrowFlag_setV]; rfl

/-- Every instruction performs what it decides on from its view. -/
theorem exec_eq (i : Instr) (s : State) : exec i s = perform s (plan i s.view) := by
  cases i with
  | ret => exact execRet_eq s
  | call nnn => exact execCall_eq nnn s
  | seByte | sneByte | seReg | sneReg => exact endContinue_skipIf s _
  | addReg x | shl x => exact resultThenOverflow_eq s x _
  | subReg x | subnReg x => exact resultThenNotBorrow_eq s x _
  | skp x => exact skipOnKey_eq (.skp x) x true s
  | sknp x => exact skipOnKey_eq (.sknp x) x false s
  | ldVxK x => exact execLdVxK_eq x s
  | drw x y n => exact withAccess_readBytes _ s n.val _ _ rfl
  | ldB x => exact withAccess_writeBytes _ s (decimalDigits (s.V x)) (List.cons_ne_nil _ _)
  | storeRegs x =>
    have hlen : ((regsUpTo x).map s.bits).length = x.val + 1 := by simp
    have hne : (regsUpTo x).map s.bits ≠ [] := List.ne_nil_of_length_pos (hlen ▸ Nat.succ_pos _)
    have := withAccess_writeBytes (.storeRegs x) s _ hne
    rw [hlen] at this
    exact this
  | loadRegs x =>
    refine withAccess_readBytes _ s (x.val + 1) _ _ ?_
    rw [List.foldl_append, ← fillRegs_eq_writes]
    rfl
  | _ => rfl

/-- An instruction that answers a next state has performed the writes it decided on. -/
theorem exec_next {i : Instr} {s t : State} (h : exec i s = .next t) :
    ∃ writes, plan i s.view = .ok writes ∧ t = writes.foldl Write.apply s := by
  rw [exec_eq] at h
  cases hp : plan i s.view with
  | error f => rw [hp] at h; cases h
  | ok writes => rw [hp] at h; cases h; exact ⟨writes, rfl, rfl⟩

end Sys2Proof.Machine

/-! ## What every instruction keeps: its frame and the invariant -/

namespace Sys2Proof.Machine

/-! ### The footprint of an instruction -/

/-- What an instruction may change, apart from PC (R14, R15, R18 to R21, R25, R47). -/
def footprint (s : State) (i : Instr) : Footprint :=
  let own : Footprint :=
    match i with
    | .cls | .drw _ _ _ => { screen := True }
    | .call _ | .ret => { stack := True }
    | .ldI _ | .addI _ | .ldF _ => { index := True }
    | .rnd _ _ | .ldVxK _ => { draw := True }
    | .ldDtVx _ => { delay := True }
    | .ldStVx _ => { sound := True }
    | _ => {}
  { own with regs := writesReg i, bytes := storesTo s i }

/-- A write stays inside a footprint. -/
def Write.Within (f : Footprint) : Write → Prop
  | .reg x _ => f.regs x
  | .index _ => f.index
  | .pc _ | .advance => True
  | .stack _ => f.stack
  | .delay _ => f.delay
  | .sound _ => f.sound
  | .bytes a bs => ∀ c, a ≤ c → c < a + bs.length → f.bytes c
  | .screen _ => f.screen
  | .draw => f.draw

/-- A write that keeps the invariant: SP stays even, bytes go to addresses of memory. -/
def Write.Safe : Write → Prop
  | .stack v => v % 2 = 0
  | .bytes a bs => a + bs.length ≤ 4096
  | _ => True

theorem accessing_ok {o : View} {i : Instr} {count : Nat} {ws ws' : List Write} (h : accessing o i count ws = .ok ws') :
    (count = 0 ∨ o.index.toNat + count ≤ 4096) ∧ ws' = ws := by
  unfold accessing at h
  split at h
  · exact ⟨by assumption, by cases h; rfl⟩
  · cases h

theorem keySkip_ok {o : View} {i : Instr} {x : RegNo} {wanted : Bool} {ws : List Write}
    (h : keySkip o i x wanted = .ok ws) : ws = skipWrites (o.keyDown (o.V x) == wanted) := by
  unfold keySkip at h
  split at h <;> cases h
  rfl

/-- A write that an instruction may make: inside the instruction's footprint, and safe while SP is even. -/
structure Permitted (s : State) (i : Instr) (w : Write) : Prop where
  within : w.Within (footprint s i)
  safe : s.sp.value.toNat % 2 = 0 → w.Safe

theorem permitted_advance (s : State) (i : Instr) : Permitted s i .advance := ⟨trivial, fun _ => trivial⟩

theorem permitted_reg {s : State} {i : Instr} {x : RegNo} {v : Int} (h : writesReg i x) : Permitted s i (.reg x v) :=
  ⟨h, fun _ => trivial⟩

theorem permitted_pair {s : State} {i : Instr} {w w' : Write} (h : Permitted s i w) (h' : Permitted s i w') :
    ∀ u ∈ [w, w'], Permitted s i u :=
  List.forall_mem_cons.2 ⟨h, List.forall_mem_singleton.2 h'⟩

theorem permitted_skipWrites (s : State) (i : Instr) (c : Bool) : ∀ w ∈ skipWrites c, Permitted s i w := by
  cases c
  · exact List.forall_mem_singleton.2 (permitted_advance s i)
  · exact permitted_pair (permitted_advance s i) (permitted_advance s i)

theorem permitted_flagWrites {s : State} {i : Instr} {x : RegNo} (result flag : Int) (hx : writesReg i x)
    (hf : writesReg i VF) : ∀ w ∈ flagWrites x result flag, Permitted s i w :=
  List.forall_mem_cons.2 ⟨permitted_reg hx, permitted_pair (permitted_reg hf) (permitted_advance s i)⟩

theorem permitted_keyWrites (s : State) (x : RegNo) : ∀ w ∈ keyWrites s.view x, Permitted s (.ldVxK x) w := by
  have hadvance := permitted_advance s (.ldVxK x)
  unfold keyWrites
  split
  · exact List.forall_mem_nil _
  · exact permitted_pair (permitted_reg rfl) hadvance
  · exact List.forall_mem_cons.2 ⟨⟨trivial, fun _ => trivial⟩, permitted_pair (permitted_reg rfl) hadvance⟩

theorem permitted_regWrites {s : State} {i : Instr} {ks : List RegNo} (h : ∀ k ∈ ks, writesReg i k) (bs : List Byte) :
    ∀ w ∈ regWrites ks bs, Permitted s i w := by
  intro w hw
  obtain ⟨n, hn, rfl⟩ := List.getElem_of_mem hw
  simp only [regWrites, List.getElem_zipWith]
  exact permitted_reg (h _ (List.getElem_mem _))

/-- Every write that an instruction plans is permitted to it. -/
theorem plan_permitted {i : Instr} {s : State} {ws : List Write} (h : plan i s.view = .ok ws) :
    ∀ w ∈ ws, Permitted s i w := by
  have hadvance := permitted_advance s i
  cases i with
  | cls | ldI | addI | ldF | ldDtVx | ldStVx =>
    cases h
    exact permitted_pair ⟨trivial, fun _ => trivial⟩ hadvance
  | jp | jpV0 =>
    cases h
    exact List.forall_mem_singleton.2 ⟨trivial, fun _ => trivial⟩
  | ret =>
    cases h
    exact permitted_pair
      ⟨trivial, fun heven => by simp only [Write.Safe, State.view]; omega⟩ ⟨trivial, fun _ => trivial⟩
  | call nnn =>
    cases h
    have hsp : s.view.stack.toNat < 256 := s.sp.value.isLt
    exact List.forall_mem_cons.2
      ⟨⟨fun c h1 h2 => ⟨h1, h2⟩, fun _ => by simp only [Write.Safe, List.length_cons, List.length_nil]; omega⟩,
        permitted_pair
          ⟨trivial, fun heven => by simp only [Write.Safe, State.view]; omega⟩ ⟨trivial, fun _ => trivial⟩⟩
  | seByte | sneByte | seReg | sneReg =>
    cases h
    exact permitted_skipWrites s _ _
  | skp | sknp =>
    rw [keySkip_ok h]
    exact permitted_skipWrites s _ _
  | ldByte | addByte | ldReg | orReg | andReg | xorReg | ldVxDt =>
    cases h
    exact permitted_pair (permitted_reg rfl) hadvance
  | addReg | subReg | shr | subnReg | shl =>
    cases h
    exact permitted_flagWrites _ _ (.inl rfl) (.inr rfl)
  | rnd =>
    cases h
    exact List.forall_mem_cons.2 ⟨⟨trivial, fun _ => trivial⟩, permitted_pair (permitted_reg rfl) hadvance⟩
  | drw =>
    rw [(accessing_ok h).2]
    exact List.forall_mem_cons.2 ⟨permitted_reg rfl, List.forall_mem_cons.2
      ⟨permitted_reg rfl, permitted_pair ⟨trivial, fun _ => trivial⟩ hadvance⟩⟩
  | ldVxK x =>
    cases h
    exact permitted_keyWrites s x
  | ldB x =>
    obtain ⟨hin, rfl⟩ := accessing_ok h
    exact permitted_pair
      ⟨fun c h1 h2 => ⟨h1, h2⟩, fun _ => hin.resolve_left (Nat.succ_ne_zero _)⟩ hadvance
  | storeRegs x =>
    obtain ⟨hin, rfl⟩ := accessing_ok h
    have hlen : ((regsUpTo x).map s.view.bits).length = x.val + 1 := by simp
    exact permitted_pair
      ⟨fun c h1 h2 => ⟨h1, hlen ▸ h2⟩, fun _ => (hlen ▸ hin).resolve_left (Nat.succ_ne_zero _)⟩ hadvance
  | loadRegs x =>
    rw [(accessing_ok h).2]
    exact List.forall_mem_append.2
      ⟨permitted_regWrites (fun k => (mem_regsUpTo x k).1) _, List.forall_mem_singleton.2 hadvance⟩

/-! ### Frames -/

theorem Frame.refl (f : Footprint) (s : State) : Frame f s s := by
  constructor <;> simp

/-- A write inside a footprint keeps the frame. -/
theorem Frame.write {f : Footprint} {s t : State} {w : Write} (hw : w.Within f) (h : Frame f s t) :
    Frame f s (w.apply t) := by
  cases w with
  | reg x v =>
    refine { h with regs := fun r hr => (t.setV_reg_other ?_ v).trans (h.regs r hr) }
    rintro rfl
    exact hr hw
  | index v => exact { h with index := fun hi => absurd hw hi }
  | pc v => exact { h with }
  | advance => exact { h with }
  | stack v => exact { h with stack := fun hi => absurd hw hi }
  | delay v => exact { h with delay := fun hi => absurd hw hi }
  | sound v => exact { h with sound := fun hi => absurd hw hi }
  | bytes a bs =>
    refine { h with bytes := fun c hc => (t.byteAt_withBytes_outside a c bs ?_).trans (h.bytes c hc) }
    by_contra hin
    exact hc (hw c (by omega) (by omega))
  | screen fb => exact { h with screen := fun hi => absurd hw hi }
  | draw => exact { h with draw := fun hi => absurd hw hi }

/-- What one write keeps, writes in a row keep. -/
theorem foldl_apply_keeps {P : State → Prop} {Q : Write → Prop} (hP : ∀ w t, Q w → P t → P (w.apply t)) :
    ∀ (ws : List Write) (t : State), (∀ w ∈ ws, Q w) → P t → P (ws.foldl Write.apply t)
  | [], _, _, h => h
  | w :: ws, t, hws, h =>
    foldl_apply_keeps hP ws _ (fun w' hw' => hws w' (List.mem_cons_of_mem _ hw')) (hP w t (hws w List.mem_cons_self) h)

/-- Every instruction leaves unchanged all that is outside its footprint. -/
theorem exec_frame {i : Instr} {s t : State} (h : exec i s = .next t) : Frame (footprint s i) s t := by
  obtain ⟨ws, hws, rfl⟩ := exec_next h
  exact foldl_apply_keeps (fun _ _ => Frame.write) ws s (fun w hw => (plan_permitted hws w hw).within) (Frame.refl _ s)

/-! ### The invariant -/

theorem tickReg_oneFlag {r : Reg 8} (h : r.oneFlag) : (tickReg r).oneFlag := by
  unfold tickReg
  split <;> exact h

/-- What an even number leaves in SP is even. -/
theorem regSet_even {v : Int} (h : v % 2 = 0) : (regSet 8 v).value.toNat % 2 = 0 := by
  have := regSet_value 8 v
  omega

/-- A safe write keeps the invariant. -/
theorem Inv.write {s : State} {w : Write} (hw : w.Safe) (h : Inv s) : Inv (w.apply s) := by
  cases w with
  | reg x v =>
    refine { h with regFlags := fun y => ?_ }
    show ((s.setV x v).reg y).oneFlag
    rw [State.setV_reg]
    split
    · exact regSet_oneFlag 8 v
    · exact h.regFlags y
  | index v => exact { h with indexFlags := regSet_oneFlag 16 v }
  | pc v => exact { h with pcFlags := regSet_oneFlag 16 v }
  | advance => exact { h with pcFlags := regSet_oneFlag 16 _ }
  | stack v => exact { h with stackEven := regSet_even hw, stackFlags := regSet_oneFlag 8 v }
  | delay v => exact { h with delayFlags := regSet_oneFlag 8 v }
  | sound v => exact { h with soundFlags := regSet_oneFlag 8 v }
  | bytes a bs => exact { h with memory := Memory.setBytes_wf bs hw h.memory }
  | screen fb => exact { h with }
  | draw => exact { h with }

/-- Every instruction keeps the invariant. -/
theorem Inv.exec {i : Instr} {s t : State} (hs : Inv s) (h : exec i s = .next t) : Inv t := by
  obtain ⟨ws, hws, rfl⟩ := exec_next h
  exact foldl_apply_keeps (fun _ _ => Inv.write) ws s (fun w hw => (plan_permitted hws w hw).safe hs.stackEven) hs

theorem Reg.initial_oneFlag {w : Nat} (v : BitVec w) : (Reg.initial v).oneFlag := by
  simp [Reg.oneFlag, Reg.initial]

@[simp] theorem State.initial_reg (p : Config.Params) (x : RegNo) : (State.initial p).reg x = Reg.initial 0 := by
  simp [State.reg, State.initial]

/-- The reset state of an admissible machine satisfies the invariant. -/
theorem Inv.initial {p : Config.Params} (hp : p.wf = true) : Inv (State.initial p) where
  params := hp
  memory := Memory.wf_nil p.font
  stackEven := by
    simp only [Config.Params.wf, Bool.and_eq_true, beq_iff_eq] at hp
    exact hp.1.1
  regFlags x := by rw [State.initial_reg]; exact Reg.initial_oneFlag 0
  indexFlags := Reg.initial_oneFlag _
  pcFlags := Reg.initial_oneFlag _
  stackFlags := Reg.initial_oneFlag _
  delayFlags := Reg.initial_oneFlag _
  soundFlags := Reg.initial_oneFlag _

/-- Every event keeps the invariant. -/
theorem Inv.performEvent {e : HostEvent} {s t : State} (hs : Inv s) (h : performEvent e s = .next t) : Inv t := by
  rcases performEvent_next h with ⟨-, -, w, i, -, -, hexec⟩ | ⟨-, -, rfl⟩ | ⟨l, -, rfl⟩ | ⟨-, rfl⟩ | ⟨-, rfl⟩ |
    ⟨rom, -, hlen, rfl⟩
  · exact hs.exec hexec
  · exact { hs with delayFlags := tickReg_oneFlag hs.delayFlags, soundFlags := tickReg_oneFlag hs.soundFlags }
  · exact { hs with }
  · exact { hs with }
  · exact { hs with }
  · exact { Inv.initial hs.params with memory := Memory.setBytes_wf rom (by omega) (Memory.wf_nil _) }

/-- Settles O44: the base case of the invariant. -/
theorem invariantHoldsAtReset : Obligations.InvariantHoldsAtReset := by
  unfold Obligations.InvariantHoldsAtReset
  exact ⟨Inv.initial (by decide), fun p hp => Inv.initial hp⟩

/-- Settles O45: an instruction keeps the invariant write by write, every other event by its own next state. -/
theorem stepKeepsTheInvariant : Obligations.StepKeepsTheInvariant := by
  unfold Obligations.StepKeepsTheInvariant
  intro s t hs h
  rw [step_eq] at h
  obtain ⟨l, hl⟩ := nextEvent_state s
  rw [hl] at h
  have hs' : Inv { s with schedule := l } := { hs with }
  exact hs'.performEvent h

end Sys2Proof.Machine

/-! ## Frames of the whole machine: which instructions change which piece of state -/

namespace Sys2Proof.Machine

/-- Only the three writers of I have it in their footprint (R18). -/
theorem footprint_index {s : State} {i : Instr} (h : (footprint s i).index) :
    (∃ nnn, i = .ldI nnn) ∨ (∃ x, i = .addI x) ∨ ∃ x, i = .ldF x := by
  cases i <;> simp_all [footprint]

/-- Only call and return have SP in their footprint (R19). -/
theorem footprint_stack {s : State} {i : Instr} (h : (footprint s i).stack) : (∃ nnn, i = .call nnn) ∨ i = .ret := by
  cases i <;> simp_all [footprint]

/-- Only `Fx15` has DT in its footprint (R20). -/
theorem footprint_delay {s : State} {i : Instr} (h : (footprint s i).delay) : ∃ x, i = .ldDtVx x := by
  cases i <;> simp_all [footprint]

/-- Only `Fx18` has ST in its footprint (R21). -/
theorem footprint_sound {s : State} {i : Instr} (h : (footprint s i).sound) : ∃ x, i = .ldStVx x := by
  cases i <;> simp_all [footprint]

/-- Only the clear and the draw have the screen in their footprint (R25, R29). -/
theorem footprint_screen {s : State} {i : Instr} (h : (footprint s i).screen) : i = .cls ∨ ∃ x y n, i = .drw x y n := by
  cases i <;> simp_all [footprint]

/-- A call leaves SP raised by 2, modulo 256 (R90). -/
theorem sp_of_exec_call {nnn : Addr12} {s t : State} (h : exec (.call nnn) s = .next t) :
    t.sp = regSet 8 (s.sp.value.toNat + 2) := by
  obtain ⟨ws, hws, rfl⟩ := exec_next h
  cases hws
  rfl

/-- A return leaves SP lowered by 2, modulo 256 (R90). -/
theorem sp_of_exec_ret {s t : State} (h : exec .ret s = .next t) : t.sp = regSet 8 (s.sp.value.toNat - 2) := by
  obtain ⟨ws, hws, rfl⟩ := exec_next h
  cases hws
  rfl

/-- A write of an old value plus a constant adds the constant, modulo the width. -/
theorem regSet_value_add {w : Nat} (b : BitVec w) (d : Int) :
    (regSet w (b.toNat + d)).value = b + BitVec.ofInt w d := by
  simp [regSet, BitVec.ofInt_add]

/-- The clear and the draw leave the redraw mark set (R29). -/
theorem fbDirty_of_exec_screen {i : Instr} {s t : State} (hi : i = .cls ∨ ∃ x y n, i = .drw x y n)
    (h : exec i s = .next t) : t.fbDirty = true := by
  obtain ⟨ws, hws, rfl⟩ := exec_next h
  rcases hi with rfl | ⟨x, y, n, rfl⟩
  · cases hws; rfl
  · rw [(accessing_ok hws).2]; rfl

/-- Settles O46, by the frame of every instruction. -/
theorem registersChangeOnlyByTheirWriters : Obligations.RegistersChangeOnlyByTheirWriters := by
  unfold Obligations.RegistersChangeOnlyByTheirWriters
  intro i s t r h hr
  exact (exec_frame h).regs r hr

/-- Settles O48, by the frame of every instruction, and the writes of SP by call and return. -/
theorem pointersAndTimersChangeOnlyByTheirWriters : Obligations.PointersAndTimersChangeOnlyByTheirWriters := by
  unfold Obligations.PointersAndTimersChangeOnlyByTheirWriters
  intro i s t h
  have hframe := exec_frame h
  refine ⟨fun h1 h2 h3 => hframe.index fun hf => ?_, fun h1 h2 => hframe.stack fun hf => ?_, ?_, ?_,
    fun h1 => hframe.delay fun hf => ?_, fun h1 => hframe.sound fun hf => ?_⟩
  · rcases footprint_index hf with ⟨nnn, rfl⟩ | ⟨x, rfl⟩ | ⟨x, rfl⟩
    · exact h1 nnn rfl
    · exact h2 x rfl
    · exact h3 x rfl
  · rcases footprint_stack hf with ⟨nnn, rfl⟩ | rfl
    · exact h1 nnn rfl
    · exact h2 rfl
  · rintro ⟨nnn, rfl⟩
    rw [sp_of_exec_call h]
    exact regSet_value_add s.sp.value 2
  · rintro rfl
    rw [sp_of_exec_ret h, Int.sub_eq_add_neg, regSet_value_add, BitVec.sub_eq_add_neg]
    rfl
  · obtain ⟨x, rfl⟩ := footprint_delay hf
    exact h1 x rfl
  · obtain ⟨x, rfl⟩ := footprint_sound hf
    exact h1 x rfl

/-- Settles O49, by the frame of every instruction and the last writes of the two that touch the screen. -/
theorem screenChangesOnlyByClearAndDraw : Obligations.ScreenChangesOnlyByClearAndDraw := by
  unfold Obligations.ScreenChangesOnlyByClearAndDraw
  intro i s t h
  refine ⟨fun hcls hdrw => (exec_frame h).screen fun hf => ?_, fun hi => fbDirty_of_exec_screen hi h⟩
  rcases footprint_screen hf with rfl | ⟨x, y, n, rfl⟩
  · exact hcls rfl
  · exact hdrw x y n rfl

/-- Settles O50: these four are in no footprint. -/
theorem instructionsLeaveParametersAndInputs : Obligations.InstructionsLeaveParametersAndInputs := by
  unfold Obligations.InstructionsLeaveParametersAndInputs
  intro i s t h
  have hframe := exec_frame h
  exact ⟨hframe.params, hframe.keys, hframe.schedule, hframe.status⟩

end Sys2Proof.Machine

/-! ## Noninterference: the Register flags, the redraw mark and the sound timer -/

namespace Sys2Proof.Machine

/-- What makes a part of the state unobservable: taking it away leaves the view of instructions, the status, the schedule
and the outcome of a reset, commutes with what the other events do, and no write lets it influence the rest. -/
structure Erases (erase : State → State) : Prop where
  idempotent : ∀ s, erase (erase s) = erase s
  view : ∀ s, (erase s).view = s.view
  write : ∀ (w : Write) s, erase (w.apply s) = erase (w.apply (erase s))
  tick : ∀ s, erase s.tick = (erase s).tick
  status : ∀ s, (erase s).status = s.status := by intro s; rfl
  schedule : ∀ s, (erase s).schedule = s.schedule := by intro s; rfl
  setSchedule : ∀ s l, erase { s with schedule := l } = { erase s with schedule := l } := by intro s l; rfl
  setKeys : ∀ s l, erase { s with keys := l } = { erase s with keys := l } := by intro s l; rfl
  clearRedraw : ∀ s, erase { s with fbDirty := false } = { erase s with fbDirty := false } := by intro s; rfl
  setStatus : ∀ s u, erase { s with status := u } = { erase s with status := u } := by intro s u; rfl
  reset : ∀ rom s, resetEvent rom (erase s) = resetEvent rom s := by intro rom s; rfl

/-- The fetch reads no more than the view. -/
theorem fetch_eq_of_view_eq {s t : State} (h : s.view = t.view) : fetch s = fetch t := by
  have hpc : s.pc.value = t.pc.value := congrArg View.pc h
  have hbyte : s.byteAt = t.byteAt := congrArg View.byteAt h
  simp only [fetch, State.memRead2, State.memRead1, hpc, hbyte]

section
variable {erase : State → State} (he : Erases erase)
include he

/-- A change that commutes with the erasure lets nothing of the erased part through. -/
theorem Erases.of_commutes {change : State → State} (h : ∀ s, erase (change s) = change (erase s)) (s : State) :
    erase (change s) = erase (change (erase s)) := by
  rw [h, h, he.idempotent]

/-- Writes in a row end alike from states that are alike. -/
theorem Erases.writes (ws : List Write) {s t : State} (h : erase s = erase t) :
    erase (ws.foldl Write.apply s) = erase (ws.foldl Write.apply t) := by
  induction ws generalizing s t with
  | nil => exact h
  | cons w ws ih => exact ih (by rw [he.write w s, h, ← he.write w t])

theorem Erases.exec (i : Instr) (s : State) : mapNext erase (exec i s) = mapNext erase (exec i (erase s)) := by
  rw [exec_eq, exec_eq, he.view]
  cases plan i s.view with
  | error f => rfl
  | ok ws => exact congrArg Host.Outcome.next (he.writes ws (he.idempotent s).symm)

theorem Erases.instructionStep (s : State) :
    mapNext erase (instructionStep s) = mapNext erase (instructionStep (erase s)) := by
  have hpc : (erase s).pc.value = s.pc.value := congrArg View.pc (he.view s)
  simp only [Machine.instructionStep, fetch_eq_of_view_eq (he.view s), raise, hpc]
  cases fetch s with
  | error a => rfl
  | ok w =>
    cases hw : decodeWord w with
    | error e => simp only [hw]
    | ok i => simpa only [hw] using he.exec i s

theorem Erases.whenRunning {s : State} {r r' : Result} (h : mapNext erase r = mapNext erase r') :
    mapNext erase (whenRunning s r) = mapNext erase (whenRunning (erase s) r') := by
  unfold Machine.whenRunning
  rw [he.status]
  cases s.status with
  | running => exact h
  | faulted cause => rfl
  | quit => rfl

theorem Erases.performEvent (e : HostEvent) (s : State) :
    mapNext erase (performEvent e s) = mapNext erase (performEvent e (erase s)) := by
  cases e with
  | step => exact he.whenRunning (he.instructionStep s)
  | tick => exact he.whenRunning (congrArg Host.Outcome.next (he.of_commutes he.tick s))
  | keys l => exact congrArg Host.Outcome.next (he.of_commutes (he.setKeys · l) s)
  | redrawAck => exact congrArg Host.Outcome.next (he.of_commutes he.clearRedraw s)
  | quit =>
    simp only [Machine.performEvent, he.status]
    exact congrArg Host.Outcome.next (he.of_commutes (he.setStatus · _) s)
  | reset rom => exact congrArg (mapNext erase) (he.reset rom s).symm

/-- What is taken away so is unobservable: a step performs an event, and a `Step` event writes what its view decides. -/
theorem Erases.unobservable : Unobservable erase := by
  intro s
  unfold step
  rw [he.schedule]
  cases s.schedule with
  | nil => exact he.performEvent .step s
  | cons e rest =>
    simp only
    rw [he.performEvent, he.setSchedule]
end

/-! ### The three parts -/

theorem eraseRedraw_erases : Erases eraseRedraw where
  idempotent _ := rfl
  view _ := rfl
  write w _ := by cases w <;> rfl
  tick _ := rfl

theorem eraseSound_erases : Erases eraseSound where
  idempotent _ := rfl
  view _ := rfl
  write w _ := by cases w <;> rfl
  tick _ := rfl

@[simp] theorem Reg.erase_value {w : Nat} (r : Reg w) : r.erase.value = r.value := rfl

@[simp] theorem Reg.erase_erase {w : Nat} (r : Reg w) : r.erase.erase = r.erase := rfl

@[simp] theorem Reg.erase_comp_erase {w : Nat} : (Reg.erase ∘ Reg.erase : Reg w → Reg w) = Reg.erase := rfl

/-- A tick neither reads nor writes the flags (R146). -/
theorem tickReg_erase (r : Reg 8) : tickReg r.erase = (tickReg r).erase := by
  unfold tickReg
  rw [Reg.erase_value]
  split <;> rfl

theorem eraseFlags_bits (s : State) : (eraseFlags s).bits = s.bits := by
  funext x
  simp [State.bits, State.reg, eraseFlags]

theorem eraseFlags_view (s : State) : (eraseFlags s).view = s.view :=
  congrArg (fun b => { s.view with bits := b }) (eraseFlags_bits s)

theorem eraseFlags_erases : Erases eraseFlags where
  idempotent s := by simp [eraseFlags]
  view := eraseFlags_view
  write w s := by
    cases w with
    | reg x v => simp [eraseFlags, Write.apply, State.setV, Vector.map_set]
    | index v => simp [eraseFlags, Write.apply, State.setI]
    | pc v => simp [eraseFlags, Write.apply, State.setPC]
    | advance => simp [eraseFlags, Write.apply, State.advance, State.setPC]
    | stack v => simp [eraseFlags, Write.apply, State.setSP]
    | delay v => simp [eraseFlags, Write.apply, State.setDT]
    | sound v => simp [eraseFlags, Write.apply, State.setST]
    | bytes a bs => simp [eraseFlags, Write.apply, State.withBytes]
    | screen fb => simp [eraseFlags, Write.apply, State.setScreen]
    | draw => simp [eraseFlags, Write.apply, State.nextDraw]
  tick s := by simp only [eraseFlags, State.tick, tickReg_erase]

/-- Settles O51: the flags are erased from every register, and an instruction's view holds only register values. -/
theorem registerFlagsAreUnobservable : Obligations.RegisterFlagsAreUnobservable :=
  eraseFlags_erases.unobservable

/-- Settles O52: the redraw mark is in no view. -/
theorem redrawMarkIsUnobservable : Obligations.RedrawMarkIsUnobservable :=
  eraseRedraw_erases.unobservable

/-- Settles O53: the sound timer is in no view. -/
theorem soundTimerIsUnobservable : Obligations.SoundTimerIsUnobservable :=
  eraseSound_erases.unobservable

end Sys2Proof.Machine

/-! ## Subtracts and shifts, register writes, events and reset -/

namespace Sys2Proof.Machine

/-! ### Group 8 -/

/-- A group-8 pattern is decoded by the selector in its low nibble (R62, R65). -/
theorem encodedBy_group8 {p : Word} {instr : Word → Instr} (hp : groupOf p = 8)
    (h : ∀ w, nOf w = nOf p → decodeGroup8 w = .ok (instr w)) : EncodedBy 0xF00F p instr := by
  intro w hw
  obtain ⟨hg, hn⟩ := group_n_of_match hw
  rw [decodeWord, hg, hp]
  exact h w hn

/-- An instruction that plans a result and a flag completes with both, inside its own footprint. -/
theorem exec_flagWrites {i : Instr} {s : State} {x : RegNo} {result flag : Int}
    (h : plan i s.view = .ok (flagWrites x result flag)) :
    ∃ t, exec i s = .next t ∧ (x ≠ VF → t.reg x = regSet 8 result) ∧ t.reg VF = regSet 8 flag ∧
      t.pc = regAdd s.pc 2 ∧ Frame (footprint s i) s t := by
  have hexec : exec i s = .next ((s.setV x result).setV VF flag).advance := by rw [exec_eq, h]; rfl
  refine ⟨_, hexec, fun hx => ?_, by simp, rfl, exec_frame hexec⟩
  rw [State.advance_reg, State.setV_reg_other _ (Ne.symm hx), State.setV_reg_same]

/-- The not-borrow of a difference of two bytes. -/
theorem notBorrow_sub (a b : Nat) :
    (1 - ((regSet 8 ((a : Int) - b)).borrowed.toNat : Int)) = if b ≤ a then 1 else 0 := by
  rw [regSet_borrowed]
  split
  · next h => rw [decide_eq_false (by omega)]; rfl
  · next h => rw [decide_eq_true (by omega)]; rfl

/-- The difference of two bytes, modulo 256. -/
theorem regSet_sub_value {a b : Nat} (hb : b < 256) :
    (regSet 8 ((a : Int) - b)).value.toNat = (a + 256 - b) % 256 := by
  have := regSet_value 8 ((a : Int) - b)
  omega

theorem State.V_lt (s : State) (x : RegNo) : s.V x < 256 := (s.reg x).value.isLt

/-- An instruction that plans a difference and its not-borrow completes with both. -/
theorem exec_difference {i : Instr} {s : State} {x : RegNo} {a b : Nat} (hb : b < 256)
    (h : plan i s.view =
      .ok (flagWrites x ((a : Int) - b) (1 - ((regSet 8 ((a : Int) - b)).borrowed.toNat : Int)))) :
    ∃ t, exec i s = .next t ∧ (x ≠ VF → t.reg x = regSet 8 ((a : Int) - b)) ∧
      (x ≠ VF → t.V x = (a + 256 - b) % 256) ∧ t.reg VF = regSet 8 (if b ≤ a then 1 else 0) ∧
      t.pc = regAdd s.pc 2 ∧ Frame (footprint s i) s t := by
  obtain ⟨t, hexec, hx, hf, hpc, hframe⟩ := exec_flagWrites h
  refine ⟨t, hexec, hx, fun hxF => ?_, by rw [hf, notBorrow_sub], hpc, hframe⟩
  rw [State.V, hx hxF, regSet_sub_value hb]

/-- Settles O19: both subtracts plan a difference and its not-borrow. -/
theorem subtractWithNotBorrowToVF : Obligations.SubtractWithNotBorrowToVF := by
  unfold Obligations.SubtractWithNotBorrowToVF
  exact ⟨encodedBy_group8 rfl fun w hn => by rw [decodeGroup8, hn]; rfl,
    encodedBy_group8 rfl fun w hn => by rw [decodeGroup8, hn]; rfl,
    fun s x y => ⟨exec_difference (s.V_lt y) rfl, exec_difference (s.V_lt x) rfl⟩⟩

/-- The bit that a right shift by one moves out is bit 0. -/
theorem rightBitOut_eq (n : Nat) : rightBitOut n = if n.testBit 0 then 1 else 0 := by
  unfold rightBitOut
  rw [Nat.testBit_zero]
  rcases Nat.mod_two_eq_zero_or_one n with h | h <;> simp [h]

/-- The overflow of a doubled byte is its bit 7. -/
theorem overflow_double {n : Nat} (h : n < 256) :
    ((regSet 8 ((2 * n : Nat) : Int)).overflowed.toNat : Int) = if n.testBit 7 then 1 else 0 := by
  have hbit : n.testBit 7 = decide ((2 : Int) ^ 8 ≤ (2 * n : Nat)) := by
    rw [Nat.testBit_eq_decide_div_mod_eq, decide_eq_decide]
    omega
  rw [regSet_overflowed, ← hbit]
  cases n.testBit 7 <;> rfl

/-- The source of a shift is the one that `SHIFT_SRC` names. -/
theorem view_shiftSource (s : State) (x y : RegNo) :
    s.view.shiftSource x y = if s.params.shiftSrc = .vx then s.V x else s.V y := by
  have hsrc : s.view.shiftSrc = s.params.shiftSrc := rfl
  unfold View.shiftSource
  rw [hsrc]
  cases s.params.shiftSrc <;> rfl

theorem View.shiftSource_lt (o : View) (x y : RegNo) : o.shiftSource x y < 256 := by
  unfold View.shiftSource
  split
  · exact (o.bits x).isLt
  · exact (o.bits y).isLt

/-- Settles O21: both shifts plan the shifted source and the bit shifted out. -/
theorem shiftsByOne : Obligations.ShiftsByOne := by
  unfold Obligations.ShiftsByOne
  refine ⟨encodedBy_group8 rfl fun w hn => by rw [decodeGroup8, hn]; rfl,
    encodedBy_group8 rfl fun w hn => by rw [decodeGroup8, hn]; rfl, fun s x y src hsrc => ?_⟩
  rw [← view_shiftSource] at hsrc
  have hlt : src < 256 := hsrc ▸ View.shiftSource_lt _ x y
  have hdouble : src <<< 1 = 2 * src := by rw [Nat.shiftLeft_eq, Nat.pow_one, Nat.mul_comm]
  constructor
  · obtain ⟨t, hexec, hx, hf, hpc, hframe⟩ := exec_flagWrites (s := s) (i := .shr x y) rfl
    rw [← hsrc, Nat.shiftRight_one] at hx
    rw [← hsrc, rightBitOut_eq] at hf
    refine ⟨t, hexec, hx, fun hxF => ?_, hf, hpc, hframe⟩
    rw [State.V, hx hxF, regSet_value_small (by omega)]
  · obtain ⟨t, hexec, hx, hf, hpc, hframe⟩ := exec_flagWrites (s := s) (i := .shl x y) rfl
    rw [← hsrc, hdouble] at hx
    rw [← hsrc, hdouble, overflow_double hlt] at hf
    refine ⟨t, hexec, hx, fun hxF => ?_, hf, hpc, hframe⟩
    rw [State.V, hx hxF, regSet_value_nat, BitVec.toNat_ofNat]

/-! ### Register writes -/

/-- Settles O7, by the laws of `regSet`. -/
theorem registerWriteWrapsAndFlags : Obligations.RegisterWriteWrapsAndFlags := by
  unfold Obligations.RegisterWriteWrapsAndFlags
  refine ⟨fun w v => ⟨regSet_value w v, ?_, ?_, regSet_oneFlag w v, fun r => rfl⟩,
    fun s x v => ⟨s.setV_reg_same x v, rfl, rfl, rfl, rfl, rfl⟩⟩
  · rw [regSet_overflowed, decide_eq_true_eq]
  · rw [regSet_borrowed, decide_eq_true_eq]

/-! ### Events and reset -/

theorem step_of_schedule_cons {s : State} {e : HostEvent} {rest : List HostEvent} (h : s.schedule = e :: rest) :
    step s = performEvent e { s with schedule := rest } := by
  simp only [step, h]

/-- Settles O40: each of the three events is its own next state. -/
theorem keysRedrawAckAndQuitEvents : Obligations.KeysRedrawAckAndQuitEvents := by
  unfold Obligations.KeysRedrawAckAndQuitEvents
  intro s rest levels
  refine ⟨step_of_schedule_cons, step_of_schedule_cons, fun hs hrun => ?_⟩
  rw [step_of_schedule_cons hs]
  simp only [performEvent, hrun, quitStatus]

theorem whenRunning_faulted {s : State} {r : Result} {cause : Fault} (h : s.status = .faulted cause) :
    whenRunning s r = .fault cause := by
  simp only [whenRunning, h]

theorem whenRunning_quit {s : State} {r : Result} (h : s.status = .quit) : whenRunning s r = .refused .runEnded := by
  simp only [whenRunning, h]

/-- A step that performs `Step` or `Tick` asks first whether the machine runs. -/
theorem step_eq_whenRunning {s : State} {rest : List HostEvent}
    (h : s.schedule = [] ∨ s.schedule = .step :: rest ∨ s.schedule = .tick :: rest) :
    ∃ l r, step s = whenRunning { s with schedule := l } r := by
  rcases h with h | h | h
  · exact ⟨s.schedule, instructionStep s, by simp only [step, h]; rfl⟩
  · exact ⟨rest, _, step_of_schedule_cons h⟩
  · exact ⟨rest, _, step_of_schedule_cons h⟩

theorem step_of_faulted {s : State} {rest : List HostEvent} {cause : Fault}
    (h : s.schedule = [] ∨ s.schedule = .step :: rest ∨ s.schedule = .tick :: rest) (hs : s.status = .faulted cause) :
    step s = .fault cause := by
  obtain ⟨l, r, hstep⟩ := step_eq_whenRunning h
  exact hstep.trans (whenRunning_faulted hs)

/-- Settles O42: both events ask for the run status first. -/
theorem stoppedMachineStaysStopped : Obligations.StoppedMachineStaysStopped := by
  unfold Obligations.StoppedMachineStaysStopped
  intro s rest cause h
  refine ⟨step_of_faulted (s := latchFault cause s) h rfl, step_of_faulted h, fun hs => ?_⟩
  obtain ⟨l, r, hstep⟩ := step_eq_whenRunning h
  exact hstep.trans (whenRunning_quit hs)

theorem Memory.unlisted_font (font : Vector Byte 80) {a : Nat} (h : a < 80) : Memory.unlisted font a = font[a] :=
  dif_pos h

theorem Memory.unlisted_zero (font : Vector Byte 80) {a : Nat} (h : 80 ≤ a) : Memory.unlisted font a = 0 :=
  dif_neg (Nat.not_lt.2 h)

/-- Settles O43, field by field. -/
theorem resetStateTable : Obligations.ResetStateTable := by
  unfold Obligations.ResetStateTable
  exact ⟨rfl, fun p => ⟨State.initial_reg p, rfl, rfl, rfl, rfl, rfl, fun a h => Memory.unlisted_font p.font h,
    fun a h => Memory.unlisted_zero p.font h, Framebuffer.get_clear, rfl, rfl⟩⟩

/-- Settles O41: the reset state with the image written from 0x200, which the reads of memory tell apart by address. -/
theorem resetLoadsTheImage : Obligations.ResetLoadsTheImage := by
  unfold Obligations.ResetLoadsTheImage
  intro s rom rest h
  rw [step_of_schedule_cons h]
  refine ⟨fun hlen => ?_, fun hlen => if_neg fun hw => Nat.not_le.2 hlen (of_decide_eq_true hw)⟩
  have hbyte a (ha : a < 0x200 ∨ 0x200 + rom.length ≤ a) :
      Memory.get s.params.font (Memory.setBytes s.params.font [] 0x200 rom) a = Memory.unlisted s.params.font a :=
    Memory.get_setBytes_outside s.params.font rom [] 0x200 a ha
  exact ⟨_, if_pos (decide_eq_true hlen), rfl, rfl, State.initial_reg s.params, rfl, rfl, rfl, rfl, rfl,
    Framebuffer.get_clear, rfl, fun k hk => Memory.get_setBytes_inside _ _ _ _ _ hk,
    fun a ha => (hbyte a (.inl (by omega))).trans (Memory.unlisted_font _ ha),
    fun a ha hout => (hbyte a hout).trans (Memory.unlisted_zero _ ha)⟩

end Sys2Proof.Machine

/-! ## Memory: the canonical form, checked accesses, stores -/

namespace Sys2Proof.Machine

/-! ### The canonical form is unique -/

theorem Memory.rising_iff_pairwise (m : Memory) : m.rising = true ↔ m.Pairwise (fun c d => c.1 < d.1) := by
  induction m with
  | nil => simp [Memory.rising]
  | cons c rest ih => rw [Memory.rising_cons, List.pairwise_cons, ih]

/-- A listed byte is listed in a cell. -/
theorem Memory.mem_of_lookup {m : Memory} {a : Nat} {v : Byte} (h : m.lookup a = some v) : (a, v) ∈ m := by
  induction m with
  | nil => cases h
  | cons c rest ih =>
    rw [Memory.lookup] at h
    split at h
    · next ha => cases h; exact ha ▸ List.mem_cons_self
    · exact List.mem_cons_of_mem _ (ih h)

/-- With rising addresses every cell is the one that is looked up. -/
theorem Memory.lookup_of_mem {m : Memory} (hm : m.rising = true) {a : Nat} {v : Byte} (h : (a, v) ∈ m) :
    m.lookup a = some v := by
  induction m with
  | nil => cases h
  | cons c rest ih =>
    obtain ⟨hlt, hrest⟩ := (Memory.rising_cons c.1 c.2 rest).1 hm
    rw [Memory.lookup]
    rcases List.mem_cons.1 h with rfl | h
    · exact if_pos rfl
    · rw [if_neg (Nat.ne_of_gt (hlt _ h)), ih hrest h]

/-- The cells of a canonical memory are told by its reads: an address is listed where it reads as something else than an
unlisted one. -/
theorem Memory.mem_iff_get {font : Vector Byte 80} {m : Memory} (hm : Memory.wf font m = true) (c : Host.Cell) :
    c ∈ m ↔ c.1 < 4096 ∧ Memory.get font m c.1 = c.2 ∧ c.2 ≠ Memory.unlisted font c.1 := by
  obtain ⟨hrising, hcells⟩ := (Memory.wf_iff font m).1 hm
  constructor
  · intro hc
    obtain ⟨hlt, hne⟩ := hcells c hc
    exact ⟨hlt, by rw [Memory.get, Memory.lookup_of_mem hrising hc]; rfl, hne⟩
  · rintro ⟨-, hget, hne⟩
    rw [Memory.get] at hget
    cases hlookup : m.lookup c.1 with
    | none => rw [hlookup] at hget; exact absurd hget.symm hne
    | some v =>
      rw [hlookup] at hget
      cases hget
      exact Memory.mem_of_lookup hlookup

/-- Rising lists with the same cells are the same list. -/
theorem Memory.eq_of_mem_iff {m m' : Memory} (hm : m.rising = true) (hm' : m'.rising = true)
    (h : ∀ c, c ∈ m ↔ c ∈ m') : m = m' := by
  rw [Memory.rising_iff_pairwise] at hm hm'
  have : Std.Irrefl (fun c d : Host.Cell => c.1 < d.1) := ⟨fun c => Nat.lt_irrefl c.1⟩
  have : Std.Antisymm (fun c d : Host.Cell => c.1 < d.1) := ⟨fun _ _ hlt hgt => absurd hgt (Nat.lt_asymm hlt)⟩
  exact hm.eq_of_mem_iff hm' h

/-- Settles O9: the reads tell the cells, and rising addresses their order. -/
theorem canonicalMemoryIsUnique : Obligations.CanonicalMemoryIsUnique := by
  unfold Obligations.CanonicalMemoryIsUnique
  intro font m m' hm hm' hget
  refine Memory.eq_of_mem_iff ((Memory.wf_iff font m).1 hm).1 ((Memory.wf_iff font m').1 hm').1 fun c => ?_
  rw [Memory.mem_iff_get hm, Memory.mem_iff_get hm']
  exact and_congr_right fun hlt => by rw [hget c.1 hlt]

/-! ### Checked accesses -/

/-- Bytes written inside a footprint keep its frame. -/
theorem State.withBytes_frame {f : Footprint} (s : State) {a : Nat} {bs : List Byte}
    (h : ∀ c, a ≤ c → c < a + bs.length → f.bytes c) : Frame f s (s.withBytes a bs) :=
  Frame.write (w := .bytes a bs) h (Frame.refl f s)

/-- The word that `MemWrite(a, 2, v)` leaves at its address is `v` (R45). -/
theorem State.wordAt_withBytes (s : State) (a : Nat) (v : Word) :
    (s.withBytes a [highByte v, lowByte v]).byteAt a ++ (s.withBytes a [highByte v, lowByte v]).byteAt (a + 1) = v := by
  have hhigh := s.byteAt_withBytes_inside a 0 [highByte v, lowByte v] Nat.two_pos
  have hlow := s.byteAt_withBytes_inside a 1 [highByte v, lowByte v] Nat.one_lt_two
  exact (congrArg₂ (· ++ ·) hhigh hlow).trans (highByte_append_lowByte v)

/-- Settles O8, range by range; the writes are rows of one and of two bytes. -/
theorem memoryAccessContract : Obligations.MemoryAccessContract := by
  unfold Obligations.MemoryAccessContract
  intro s a b v
  refine ⟨fun h => ⟨s.memRead1_ok h, s.withBytes a [b], s.memWrite1_ok b h, ?_, rfl, s.withBytes_frame ?_⟩,
    fun h => ⟨s.memRead1_error h, s.memWrite1_error b h⟩,
    fun h => ⟨s.memRead2_ok h, s.withBytes a [highByte v, lowByte v], s.memWrite2_ok v h, s.wordAt_withBytes a v, rfl,
      s.withBytes_frame ?_⟩,
    fun h => ⟨s.memRead2_error h, s.memWrite2_error v h⟩⟩
  · exact s.byteAt_withBytes_inside a 0 [b] Nat.one_pos
  · intro c h1 h2
    exact Nat.le_antisymm (Nat.le_of_lt_succ h2) h1
  · intro c h1 h2
    simp only [List.length_cons, List.length_nil] at h2
    show c = a ∨ c = a + 1
    omega

/-! ### Stores -/

/-- Settles O47, by the frame of every instruction. -/
theorem memoryChangesOnlyByStores : Obligations.MemoryChangesOnlyByStores := by
  unfold Obligations.MemoryChangesOnlyByStores
  intro i s t a h ha
  exact (exec_frame h).bytes a ha

/-- A register store that completes leaves register `k` at address `I + k` (R124). -/
theorem byteAt_of_exec_storeRegs {s t : State} {x k : RegNo} (h : exec (.storeRegs x) s = .next t) (hk : k ≤ x) :
    s.i.value.toNat + x.val < 4096 ∧ t.byteAt (s.i.value.toNat + k.val) = (s.reg k).value := by
  obtain ⟨ws, hws, rfl⟩ := exec_next h
  obtain ⟨hin, rfl⟩ := accessing_ok hws
  have hlen : k.val < ((regsUpTo x).map s.bits).length := by simpa using Nat.lt_succ_of_le hk
  refine ⟨hin.resolve_left (Nat.succ_ne_zero _), (s.byteAt_withBytes_inside _ _ _ hlen).trans ?_⟩
  rw [List.getElem_map]
  exact congrArg s.bits (Fin.ext (regsUpTo_getElem x k.val _))

/-- A `Step` whose word decodes runs the decoded instruction, the event taken off the schedule (R82, R83). -/
theorem step_eq_exec {s : State} {rest : List HostEvent} {w : Word} {i : Instr} (hnext : StepComesNext s rest)
    (hfetch : fetch s = .ok w) (hdecode : decodeWord w = .ok i) : step s = exec i { s with schedule := rest } := by
  rw [step_of_StepComesNext hnext]
  simp only [instructionStep, fetch_schedule, hfetch, hdecode]

/-- Settles O33: the store leaves the two registers where the next step fetches its word. -/
theorem storedCodeIsRunByTheNextStep : Obligations.StoredCodeIsRunByTheNextStep := by
  unfold Obligations.StoredCodeIsRunByTheNextStep
  intro s t x k k' rest i hexec hle hsucc hpc hnext hdecode
  obtain ⟨hin, hsecond⟩ := byteAt_of_exec_storeRegs hexec hle
  have hle : k'.val ≤ x.val := hle
  have hfirst := (byteAt_of_exec_storeRegs hexec (k := k) (Fin.le_def.2 (by omega))).2
  refine step_eq_exec hnext ?_ hdecode
  rw [fetch_ok (by omega), hpc, hfirst, Nat.add_assoc, ← hsucc, hsecond]

end Sys2Proof.Machine

/-! ## Encoding: fields, rows of the opcode map, decode and encode -/

namespace Sys2Proof

open Laws.OpcodePattern Machine

/-! ### A word is its fields, and a format gives its fields back (R61, R63) -/

theorem formatA_fields (w : Word) : formatA (groupOf w) (nnnOf w) = w :=
  (BitVec.extractLsb'_append_extractLsb'_eq_extractLsb' rfl).trans BitVec.extractLsb'_eq_self

theorem formatXK_fields (w : Word) : formatXK (groupOf w) (xOf w) (nnOf w) = w := by
  have hx : groupOf w ++ nibble (xOf w) = w.extractLsb' 8 8 := BitVec.extractLsb'_append_extractLsb'_eq_extractLsb' rfl
  rw [formatXK, hx]
  exact highByte_append_lowByte w

theorem formatXYN_fields (w : Word) : formatXYN (groupOf w) (xOf w) (yOf w) (nOf w) = w := by
  have hyn : nibble (yOf w) ++ nibble (nOf w) = nnOf w := BitVec.extractLsb'_append_extractLsb'_eq_extractLsb' rfl
  conv_rhs => rw [← formatXK_fields w, formatXK, ← hyn]
  exact BitVec.append_assoc (x₁ := groupOf w ++ nibble (xOf w))

@[simp] theorem nnnOf_formatA (g : BitVec 4) (nnn : Addr12) : nnnOf (formatA g nnn) = nnn :=
  BitVec.extractLsb'_append_eq_right

@[simp] theorem nnOf_formatXK (g : BitVec 4) (x : RegNo) (nn : Byte) : nnOf (formatXK g x nn) = nn :=
  BitVec.extractLsb'_append_eq_right

@[simp] theorem nOf_formatXYN (g : BitVec 4) (x y : RegNo) (n : RowCount) : nOf (formatXYN g x y n) = n :=
  congrArg BitVec.toFin BitVec.extractLsb'_append_eq_right

@[simp] theorem xOf_formatXK (g : BitVec 4) (x : RegNo) (nn : Byte) : xOf (formatXK g x nn) = x := by
  have hx : (formatXK g x nn).extractLsb' 8 4 = nibble x := by
    rw [formatXK, BitVec.extractLsb'_append_eq_of_le (Nat.le_refl 8)]
    exact BitVec.extractLsb'_append_eq_right
  exact congrArg BitVec.toFin hx

@[simp] theorem yOf_formatXYN (g : BitVec 4) (x y : RegNo) (n : RowCount) : yOf (formatXYN g x y n) = y := by
  have hy : (formatXYN g x y n).extractLsb' 4 4 = nibble y := by
    rw [formatXYN, BitVec.extractLsb'_append_eq_of_le (Nat.le_refl 4)]
    exact BitVec.extractLsb'_append_eq_right
  exact congrArg BitVec.toFin hy

@[simp] theorem xOf_formatXYN (g : BitVec 4) (x y : RegNo) (n : RowCount) : xOf (formatXYN g x y n) = x := by
  have hx : (formatXYN g x y n).extractLsb' 8 4 = nibble x := by
    rw [formatXYN, BitVec.extractLsb'_append_eq_of_le (by decide), BitVec.extractLsb'_append_eq_of_le (Nat.le_refl 4)]
    exact BitVec.extractLsb'_append_eq_right
  exact congrArg BitVec.toFin hx

/-! ### What a mask keeps, told by the fields (R66) -/

theorem and_F000 (w : Word) : w &&& 0xF000 = BitVec.ofNat 4 (groupOf w).toNat ++ (0 : BitVec 12) := by
  rw [BitVec.ofNat_toNat, BitVec.setWidth_eq, ← formatA_masked (groupOf w) (nnnOf w), formatA_fields]

theorem and_F00F (w : Word) :
    w &&& 0xF00F = BitVec.ofNat 4 (groupOf w).toNat ++ (0 : BitVec 8) ++ BitVec.ofNat 4 (nOf w).val := by
  have hn : BitVec.ofNat 4 (nOf w).val = nibble (nOf w) := BitVec.ofNat_toNat ..
  rw [hn, BitVec.ofNat_toNat, BitVec.setWidth_eq, ← formatXYS_masked (groupOf w) (xOf w) (yOf w), formatXYN_fields]

theorem and_F0FF (w : Word) :
    w &&& 0xF0FF = BitVec.ofNat 4 (groupOf w).toNat ++ (0 : BitVec 4) ++ BitVec.ofNat 8 (nnOf w).toNat := by
  simp only [BitVec.ofNat_toNat, BitVec.setWidth_eq]
  rw [← formatXS_masked (groupOf w) (xOf w), formatXK_fields]

/-! ### Every row of the opcode map, decoded -/

/-- The instruction of the same row of R66 whose fields are read from the word `w`. -/
def Instr.withFieldsOf (w : Word) : Instr → Instr
  | .cls => .cls
  | .ret => .ret
  | .jp _ => .jp (nnnOf w)
  | .call _ => .call (nnnOf w)
  | .seByte _ _ => .seByte (xOf w) (nnOf w)
  | .sneByte _ _ => .sneByte (xOf w) (nnOf w)
  | .seReg _ _ => .seReg (xOf w) (yOf w)
  | .ldByte _ _ => .ldByte (xOf w) (nnOf w)
  | .addByte _ _ => .addByte (xOf w) (nnOf w)
  | .ldReg _ _ => .ldReg (xOf w) (yOf w)
  | .orReg _ _ => .orReg (xOf w) (yOf w)
  | .andReg _ _ => .andReg (xOf w) (yOf w)
  | .xorReg _ _ => .xorReg (xOf w) (yOf w)
  | .addReg _ _ => .addReg (xOf w) (yOf w)
  | .subReg _ _ => .subReg (xOf w) (yOf w)
  | .shr _ _ => .shr (xOf w) (yOf w)
  | .subnReg _ _ => .subnReg (xOf w) (yOf w)
  | .shl _ _ => .shl (xOf w) (yOf w)
  | .sneReg _ _ => .sneReg (xOf w) (yOf w)
  | .ldI _ => .ldI (nnnOf w)
  | .jpV0 _ => .jpV0 (nnnOf w)
  | .rnd _ _ => .rnd (xOf w) (nnOf w)
  | .drw _ _ _ => .drw (xOf w) (yOf w) (nOf w)
  | .skp _ => .skp (xOf w)
  | .sknp _ => .sknp (xOf w)
  | .ldVxDt _ => .ldVxDt (xOf w)
  | .ldVxK _ => .ldVxK (xOf w)
  | .ldDtVx _ => .ldDtVx (xOf w)
  | .ldStVx _ => .ldStVx (xOf w)
  | .addI _ => .addI (xOf w)
  | .ldF _ => .ldF (xOf w)
  | .ldB _ => .ldB (xOf w)
  | .storeRegs _ => .storeRegs (xOf w)
  | .loadRegs _ => .loadRegs (xOf w)

@[simp] theorem opcodeRow_withFieldsOf (w : Word) (i : Instr) : opcodeRow (i.withFieldsOf w) = opcodeRow i := by
  cases i <;> rfl

/-- The fields of the canonical word of an instruction are those of the instruction. -/
theorem withFieldsOf_encode (i : Instr) : i.withFieldsOf (encode i) = i := by
  cases i <;> simp [Instr.withFieldsOf, encode]

/-- The canonical word of every instruction matches its row (R70). -/
theorem encode_matches : ∀ i : Instr, Statement i
  | .cls => cls
  | .ret => ret
  | .jp nnn => jp nnn
  | .call nnn => call nnn
  | .seByte x nn => seByte x nn
  | .sneByte x nn => sneByte x nn
  | .seReg x y => seReg x y
  | .ldByte x nn => ldByte x nn
  | .addByte x nn => addByte x nn
  | .ldReg x y => ldReg x y
  | .orReg x y => orReg x y
  | .andReg x y => andReg x y
  | .xorReg x y => xorReg x y
  | .addReg x y => addReg x y
  | .subReg x y => subReg x y
  | .shr x y => shr x y
  | .subnReg x y => subnReg x y
  | .shl x y => shl x y
  | .sneReg x y => sneReg x y
  | .ldI nnn => ldI nnn
  | .jpV0 nnn => jpV0 nnn
  | .rnd x nn => rnd x nn
  | .drw x y n => drw x y n
  | .skp x => skp x
  | .sknp x => sknp x
  | .ldVxDt x => ldVxDt x
  | .ldVxK x => ldVxK x
  | .ldDtVx x => ldDtVx x
  | .ldStVx x => ldStVx x
  | .addI x => addI x
  | .ldF x => ldF x
  | .ldB x => ldB x
  | .storeRegs x => storeRegs x
  | .loadRegs x => loadRegs x

theorem decodeWord_group0 {w : Word} (hg : groupOf w = 0x0) : decodeWord w = decodeGroup0 w := by
  rw [decodeWord, hg]; rfl

theorem decodeWord_groupE {w : Word} (hg : groupOf w = 0xE) : decodeWord w = decodeGroupE w := by
  rw [decodeWord, hg]; rfl

theorem decodeWord_groupF {w : Word} (hg : groupOf w = 0xF) : decodeWord w = decodeGroupF w := by
  rw [decodeWord, hg]; rfl

/-- Under the mask F000 the group alone is the selector (R62). -/
theorem encodedBy_group {p : Word} {instr : Word → Instr}
    (h : ∀ w, groupOf w = groupOf p → decodeWord w = .ok (instr w)) : EncodedBy 0xF000 p instr :=
  fun w hw => h w (group_of_match hw)

/-- Under the mask F00F the selector is the low nibble (R62). -/
theorem encodedBy_lowNibble {p : Word} {instr : Word → Instr}
    (h : ∀ w, groupOf w = groupOf p → nOf w = nOf p → decodeWord w = .ok (instr w)) : EncodedBy 0xF00F p instr :=
  fun w hw => h w (group_n_of_match hw).1 (group_n_of_match hw).2

/-- Under the mask F0FF the selector is the low byte (R62). -/
theorem encodedBy_lowByte {p : Word} {instr : Word → Instr}
    (h : ∀ w, groupOf w = groupOf p → nnOf w = nnOf p → decodeWord w = .ok (instr w)) : EncodedBy 0xF0FF p instr :=
  fun w hw => h w (group_nn_of_match hw).1 (group_nn_of_match hw).2

/-- Every word of a row of R66 decodes to the instruction of that row with the word's own fields. -/
theorem encodedBy_opcodeRow (i : Instr) :
    EncodedBy (opcodeRow i).mask (opcodeRow i).pattern (fun w => i.withFieldsOf w) := by
  cases i <;> dsimp only [opcodeRow, Instr.withFieldsOf]
  case cls | ret =>
    exact encodedBy_lowNibble fun w hg hn => by rw [decodeWord_group0 hg, decodeGroup0, hn]; rfl
  case ldReg | orReg | andReg | xorReg | addReg | subReg | shr | subnReg | shl =>
    exact encodedBy_group8 rfl fun w hn => by rw [decodeGroup8, hn]; rfl
  case skp | sknp =>
    exact encodedBy_lowByte fun w hg hnn => by rw [decodeWord_groupE hg, decodeGroupE, hnn]; rfl
  case ldVxDt | ldVxK | ldDtVx | ldStVx | addI | ldF | ldB | storeRegs | loadRegs =>
    exact encodedBy_lowByte fun w hg hnn => by rw [decodeWord_groupF hg, decodeGroupF, hnn]; rfl
  case jp | call | seByte | sneByte | seReg | ldByte | addByte | sneReg | ldI | jpV0 | rnd | drw =>
    exact encodedBy_group fun w hg => by rw [decodeWord, hg]; rfl

/-- Settles O3: the canonical word matches its row, and its fields are those of the instruction. -/
theorem decodeOfEncodeIsTheInstruction : Obligations.DecodeOfEncodeIsTheInstruction := by
  unfold Obligations.DecodeOfEncodeIsTheInstruction
  intro i rest
  refine decodeBytes_encodeBytes ?_ rest
  exact (encodedBy_opcodeRow i (encode i) (encode_matches i)).trans (congrArg _ (withFieldsOf_encode i))

/-! ### What a word decodes to -/

/-- The answers that the opcode map allows for a word: an instruction whose row the word matches and whose fields are the
word's, when the word has a handler, and `unknownOpcode` when it has none (R66, R67). -/
def Decoded (w : Word) : Except DecodeError Instr → Prop
  | .ok i => unknownWord w = false ∧ w &&& (opcodeRow i).mask = (opcodeRow i).pattern ∧ i.withFieldsOf w = i
  | .error e => unknownWord w = true ∧ e = .unknownOpcode w

theorem decodeGroup0_decoded {w : Word} (hg : (groupOf w).toNat = 0x0) : Decoded w (decodeGroup0 w) := by
  have hu : unknownWord w = !([0x0, 0xE].contains (nOf w).val) := by rw [unknownWord, hg]; rfl
  unfold decodeGroup0
  split
  case h_3 =>
    simp only [imp_false] at *
    exact ⟨by simp [*, -Fin.val_eq_zero_iff], rfl⟩
  all_goals
    next hn => exact ⟨by rw [hu, hn]; rfl, (and_F00F w).trans (by rw [hg, hn]; rfl), rfl⟩

theorem decodeGroup8_decoded {w : Word} (hg : (groupOf w).toNat = 0x8) : Decoded w (decodeGroup8 w) := by
  have hu : unknownWord w = [0x8, 0x9, 0xA, 0xB, 0xC, 0xD, 0xF].contains (nOf w).val := by rw [unknownWord, hg]; rfl
  unfold decodeGroup8
  split
  case h_10 =>
    have hlt := (nOf w).isLt
    simp only [imp_false] at *
    refine ⟨?_, rfl⟩
    simp only [hu, List.contains_cons, List.contains_nil, Bool.or_false, Bool.or_eq_true, beq_iff_eq]
    omega
  all_goals
    next hn => exact ⟨by rw [hu, hn]; rfl, (and_F00F w).trans (by rw [hg, hn]; rfl), rfl⟩

theorem decodeGroupE_decoded {w : Word} (hg : (groupOf w).toNat = 0xE) : Decoded w (decodeGroupE w) := by
  have hu : unknownWord w = !([0x9E, 0xA1].contains (nnOf w).toNat) := by rw [unknownWord, hg]; rfl
  unfold decodeGroupE
  split
  case h_3 =>
    simp only [imp_false] at *
    exact ⟨by simp [*], rfl⟩
  all_goals
    next hn => exact ⟨by rw [hu, hn]; rfl, (and_F0FF w).trans (by rw [hg, hn]; rfl), rfl⟩

theorem decodeGroupF_decoded {w : Word} (hg : (groupOf w).toNat = 0xF) : Decoded w (decodeGroupF w) := by
  have hu : unknownWord w = !([0x07, 0x0A, 0x15, 0x18, 0x1E, 0x29, 0x33, 0x55, 0x65].contains (nnOf w).toNat) := by
    rw [unknownWord, hg]; rfl
  unfold decodeGroupF
  split
  case h_10 =>
    simp only [imp_false] at *
    exact ⟨by simp [*], rfl⟩
  all_goals
    next hn => exact ⟨by rw [hu, hn]; rfl, (and_F0FF w).trans (by rw [hg, hn]; rfl), rfl⟩

/-- The decoder answers as the opcode map says, group by group. -/
theorem decodeWord_decoded (w : Word) : Decoded w (decodeWord w) := by
  unfold decodeWord
  split
  case h_1 hg => exact decodeGroup0_decoded hg
  case h_9 hg => exact decodeGroup8_decoded hg
  case h_15 hg => exact decodeGroupE_decoded hg
  case h_16 =>
    have hlt := (groupOf w).isLt
    simp only [imp_false] at *
    exact decodeGroupF_decoded (by omega)
  all_goals
    next hg => exact ⟨by rw [unknownWord, hg]; rfl, (and_F000 w).trans (by rw [hg]; rfl), rfl⟩

theorem decodeWord_ok {w : Word} {i : Instr} (h : decodeWord w = .ok i) :
    unknownWord w = false ∧ w &&& (opcodeRow i).mask = (opcodeRow i).pattern ∧ i.withFieldsOf w = i := by
  have hd := decodeWord_decoded w
  rwa [h] at hd

theorem decodeWord_error_iff (w : Word) : decodeWord w = .error (.unknownOpcode w) ↔ unknownWord w = true := by
  have hd := decodeWord_decoded w
  cases h : decodeWord w with rw [h] at hd
  | ok i => simp [hd.1]
  | error e => simp [hd.1, hd.2]

theorem decodeWord_ok_iff (w : Word) : (∃ i, decodeWord w = .ok i) ↔ unknownWord w = false := by
  have hd := decodeWord_decoded w
  cases h : decodeWord w with rw [h] at hd
  | ok i => simp [hd.1]
  | error e => simp [hd.1]

/-- Settles O4: what decodes matches its row, and what matches a row decodes to that row. -/
theorem opcodeMapSelectsTheInstruction : Obligations.OpcodeMapSelectsTheInstruction := by
  unfold Obligations.OpcodeMapSelectsTheInstruction
  constructor
  · intro w i h
    obtain ⟨-, hmatch, -⟩ := decodeWord_ok h
    exact hmatch
  · intro w i h
    exact ⟨i.withFieldsOf w, encodedBy_opcodeRow i w h, opcodeRow_withFieldsOf w i⟩

/-! ### The one word of an instruction, outside the groups 0, 5 and 9 (R68) -/

theorem formatA_of_match {w p : Word} {g : BitVec 4} (h : w &&& 0xF000 = p) (hg : groupOf p = g) :
    formatA g (nnnOf w) = w := by
  rw [← hg, ← group_of_match h, formatA_fields]

theorem formatXK_of_match {w p : Word} {g : BitVec 4} (h : w &&& 0xF000 = p) (hg : groupOf p = g) :
    formatXK g (xOf w) (nnOf w) = w := by
  rw [← hg, ← group_of_match h, formatXK_fields]

theorem formatXYN_of_match {w p : Word} {g : BitVec 4} (h : w &&& 0xF000 = p) (hg : groupOf p = g) :
    formatXYN g (xOf w) (yOf w) (nOf w) = w := by
  rw [← hg, ← group_of_match h, formatXYN_fields]

theorem formatXS_of_match {w p : Word} {g : BitVec 4} {nn : Byte} (h : w &&& 0xF0FF = p) (hg : groupOf p = g)
    (hnn : nnOf p = nn) : formatXK g (xOf w) nn = w := by
  rw [← hg, ← hnn, ← (group_nn_of_match h).1, ← (group_nn_of_match h).2, formatXK_fields]

theorem formatXYS_of_match {w p : Word} {g : BitVec 4} {n : RowCount} (h : w &&& 0xF00F = p) (hg : groupOf p = g)
    (hn : nOf p = n) : formatXYN g (xOf w) (yOf w) n = w := by
  rw [← hg, ← hn, ← (group_n_of_match h).1, ← (group_n_of_match h).2, formatXYN_fields]

/-- A word of a row outside the groups 0, 5 and 9 is the canonical word of the row with the word's fields. -/
theorem encode_withFieldsOf {w : Word} {i : Instr} (h : w &&& (opcodeRow i).mask = (opcodeRow i).pattern)
    (h0 : groupOf w ≠ 0x0) (h5 : groupOf w ≠ 0x5) (h9 : groupOf w ≠ 0x9) : encode (i.withFieldsOf w) = w := by
  cases i <;> dsimp only [opcodeRow, Instr.withFieldsOf, encode] at h ⊢
  case cls | ret => exact absurd (group_n_of_match h).1 h0
  case seReg => exact absurd (group_of_match h) h5
  case sneReg => exact absurd (group_of_match h) h9
  case jp | call | ldI | jpV0 => exact formatA_of_match h rfl
  case seByte | sneByte | ldByte | addByte | rnd => exact formatXK_of_match h rfl
  case drw => exact formatXYN_of_match h rfl
  case ldReg | orReg | andReg | xorReg | addReg | subReg | shr | subnReg | shl => exact formatXYS_of_match h rfl rfl
  case skp | sknp | ldVxDt | ldVxK | ldDtVx | ldStVx | addI | ldF | ldB | storeRegs | loadRegs =>
    exact formatXS_of_match h rfl rfl

/-- Settles O5: the rows of the groups 0, 5 and 9 take every word of theirs, and any other word is its fields. -/
theorem aliasWordsDecodeAsTheCanonicalOne : Obligations.AliasWordsDecodeAsTheCanonicalOne := by
  unfold Obligations.AliasWordsDecodeAsTheCanonicalOne
  refine ⟨encodedBy_opcodeRow .cls, encodedBy_opcodeRow .ret, encodedBy_opcodeRow (.seReg 0 0),
    encodedBy_opcodeRow (.sneReg 0 0), fun w i h h0 h5 h9 => ?_⟩
  obtain ⟨-, hmatch, hfields⟩ := decodeWord_ok h
  rw [← encode_withFieldsOf hmatch h0 h5 h9, hfields]

/-! ### Unknown opcodes (R67, R152) -/

/-- A `Step` whose word selects no handler ends with `UnknownOpcode` (R152). -/
theorem step_unknownOpcode {s : State} {rest : List HostEvent} {w : Word} (hnext : StepComesNext s rest)
    (hfetch : fetch s = .ok w) (hw : decodeWord w = .error (.unknownOpcode w)) :
    step s = .fault (.unknownOpcode { pc0 := s.pc.value, opcode := w, value := w.toNat }) := by
  rw [step_of_StepComesNext hnext]
  simp only [instructionStep, fetch_schedule, hfetch, hw, raise]

/-- Settles O6: the two answers of the decoder, and the fault of the step that meets the second. -/
theorem unknownOpcodeIsFatal : Obligations.UnknownOpcodeIsFatal := by
  unfold Obligations.UnknownOpcodeIsFatal
  exact ⟨fun w => ⟨decodeWord_error_iff w, decodeWord_ok_iff w⟩,
    fun s rest w hnext hfetch hu => step_unknownOpcode hnext hfetch ((decodeWord_error_iff w).2 hu)⟩

/-! ### The fields as numbers (R61) -/

/-- A run of bits of a word, by the mask of the run. -/
theorem extract_toNat_masked (w m : Word) (start len : Nat) (hm : m.toNat >>> start = 2 ^ len - 1) :
    (w.extractLsb' start len).toNat = ((w &&& m) >>> start).toNat := by
  rw [BitVec.extractLsb'_toNat, BitVec.toNat_ushiftRight, BitVec.toNat_and, Nat.shiftRight_and_distrib, hm,
    Nat.and_two_pow_sub_one_eq_mod]

/-- A run of bits of a word, by division. -/
theorem extract_toNat_div (w : Word) (start len : Nat) :
    (w.extractLsb' start len).toNat = w.toNat / 2 ^ start % 2 ^ len := by
  rw [BitVec.extractLsb'_toNat, Nat.shiftRight_eq_div_pow]

/-- Settles O1: the fields are runs of bits, the wide ones made of the narrow ones. -/
theorem opcodeFieldsAreTheMaskedBits : Obligations.OpcodeFieldsAreTheMaskedBits := by
  unfold Obligations.OpcodeFieldsAreTheMaskedBits
  intro w
  have hg : (groupOf w).toNat = ((w &&& BitVec.allOnes 16) >>> 12).toNat := extract_toNat_masked w _ 12 4 rfl
  rw [BitVec.and_allOnes] at hg
  have hx : (xOf w).val = w.toNat / 2 ^ 8 % 2 ^ 4 := extract_toNat_div w 8 4
  have hy : (yOf w).val = w.toNat / 2 ^ 4 % 2 ^ 4 := extract_toNat_div w 4 4
  have hn : (nOf w).val = w.toNat / 2 ^ 0 % 2 ^ 4 := extract_toNat_div w 0 4
  have hnn : (nnOf w).toNat = w.toNat / 2 ^ 0 % 2 ^ 8 := extract_toNat_div w 0 8
  have hnnn : (nnnOf w).toNat = w.toNat / 2 ^ 0 % 2 ^ 12 := extract_toNat_div w 0 12
  exact ⟨hg, extract_toNat_masked w 0x0F00 8 4 rfl, extract_toNat_masked w 0x00F0 4 4 rfl,
    extract_toNat_masked w 0x000F 0 4 rfl, extract_toNat_masked w 0x00FF 0 8 rfl,
    extract_toNat_masked w 0x0FFF 0 12 rfl, by omega, by omega⟩

/-- Settles O2: the written-out words are the canonical words of their instructions. -/
theorem writtenOutWordsDecode : Obligations.WrittenOutWordsDecode := by
  unfold Obligations.WrittenOutWordsDecode
  have h (i : Instr) : decodeBytes (encodeBytes i ++ []) = .ok (i, []) := decodeOfEncodeIsTheInstruction i []
  exact ⟨h .cls, h .ret, h (.jp 0x204), h (.call 0xABC), h (.seByte 3 0x2A), h (.sneByte 3 0x2A), h (.seReg 1 2),
    h (.ldByte 10 0x55), h (.addByte 0 0xFF), h (.addReg 0 1), h (.shr 15 1), h (.shl 0 15), h (.sneReg 1 2),
    h (.ldI 0x300), h (.jpV0 0x4FE), h (.rnd 1 0x0F), h (.drw 1 2 5), h (.skp 4), h (.sknp 4), h (.ldVxK 3),
    h (.storeRegs 2), h (.loadRegs 2)⟩

end Sys2Proof

/-! ## The step cycle: fetch, dispatch, and where an instruction leaves PC -/

namespace Sys2Proof.Machine

/-! ### Fetch and dispatch -/

/-- A `Step` whose word would reach past memory ends with `AddressRange`, opcode 0 in the record (R46, R151). -/
theorem step_fetchFault {s : State} {rest : List HostEvent} (hnext : StepComesNext s rest)
    (hpc : 4094 < s.pc.value.toNat) :
    step s = .fault (.addressRange { pc0 := s.pc.value, opcode := 0, value := max s.pc.value.toNat 4096 }) := by
  rw [step_of_StepComesNext hnext]
  simp only [instructionStep, fetch_schedule, fetch_error hpc, raise]

/-- Settles O10, on either side of the last PC that fetches. -/
theorem fetchIsBigEndianAndRangeChecked : Obligations.FetchIsBigEndianAndRangeChecked := by
  unfold Obligations.FetchIsBigEndianAndRangeChecked
  exact fun s => ⟨fetch_ok, fun hpc rest hnext => step_fetchFault hnext hpc⟩

/-- Settles O11: the step fetches and decodes the word, and what is left of it is the instruction's `exec`. -/
theorem stepRunsTheDecodedInstruction : Obligations.StepRunsTheDecodedInstruction := by
  unfold Obligations.StepRunsTheDecodedInstruction
  exact fun s rest w i => step_eq_exec

/-! ### Waiting for a key (R86, R143) -/

/-- No key is down exactly when every level is 0. -/
theorem State.downKeys_eq_nil_iff (s : State) : s.downKeys = [] ↔ s.keys = 0 := by
  constructor
  · intro h
    apply BitVec.eq_of_getLsbD_eq
    intro k hk
    have hup : ¬ s.keyDown k = true := fun hdown => List.not_mem_nil (h ▸ (s.mem_downKeys ⟨k, hk⟩).2 hdown)
    simpa [State.keyDown] using hup
  · intro h
    simp [State.downKeys, State.keyDown, h]

/-- `Fx0A` with no key down is a hold: the next state is the state before (R86). -/
theorem exec_ldVxK_of_noKey {s : State} (x : RegNo) (h : s.keys = 0) : exec (.ldVxK x) s = .next s := by
  rw [exec, execLdVxK, s.downKeys_eq_nil_iff.2 h]
  rfl

/-- `Fx0A` with a key down puts the code of such a key into Vx and advances; a draw may have been taken (R143). -/
theorem exec_ldVxK_of_key {s : State} (x : RegNo) (h : s.keys ≠ 0) :
    ∃ (k : Fin 16) (s1 : State), s.keyDown k.val = true ∧ (s1 = s ∨ s1 = s.nextDraw) ∧
      exec (.ldVxK x) s = .next (s1.setV x k.val).advance := by
  obtain ⟨key, others, hdown⟩ := List.exists_cons_of_ne_nil (mt s.downKeys_eq_nil_iff.1 h)
  obtain ⟨hmem, hstate⟩ := chooseKey_spec s key others
  refine ⟨_, _, (s.mem_downKeys _).1 (hdown ▸ hmem), hstate, ?_⟩
  rw [exec, execLdVxK, hdown]
  rfl

theorem pc_of_exec_ldVxK {s t : State} {x : RegNo} (hkeys : s.keys ≠ 0) (h : exec (.ldVxK x) s = .next t) :
    t.pc = regAdd s.pc 2 := by
  obtain ⟨k, s1, -, hs1, hexec⟩ := exec_ldVxK_of_key x hkeys
  cases hexec.symm.trans h
  rcases hs1 with rfl | rfl <;> rfl

/-- Settles O37: the hold, and the key that is written while one is down. -/
theorem waitForKey : Obligations.WaitForKey := by
  unfold Obligations.WaitForKey
  refine ⟨encodedBy_opcodeRow (.ldVxK 0), fun s x => ⟨exec_ldVxK_of_noKey x, fun hkeys => ?_⟩⟩
  obtain ⟨k, s1, hdown, -, hexec⟩ := exec_ldVxK_of_key x hkeys
  have hreg : ((s1.setV x k.val).advance).reg x = regSet 8 k.val := s1.setV_reg_same x k.val
  refine ⟨_, k, hexec, hdown, hreg, ?_, pc_of_exec_ldVxK hkeys hexec, exec_frame hexec⟩
  rw [State.V, hreg, regSet_value_small (by omega)]

/-! ### Where the jumps leave PC (R84) -/

/-- `1nnn` and `2nnn` go to nnn (R92, R93). -/
theorem pc_value_of_exec_jp_or_call {i : Instr} {nnn : Addr12} {s t : State} (hi : i = .jp nnn ∨ i = .call nnn)
    (h : exec i s = .next t) : t.pc.value.toNat = nnn.toNat := by
  have hpc : t.pc = regSet 16 nnn.toNat := by
    obtain ⟨ws, hws, rfl⟩ := exec_next h
    rcases hi with rfl | rfl <;> cases hws <;> rfl
  rw [hpc, regSet_value_small (by omega)]

/-- `Bnnn` goes to V0 + nnn, which always fits PC (R98). -/
theorem pc_value_of_exec_jpV0 {nnn : Addr12} {s t : State} (h : exec (.jpV0 nnn) s = .next t) :
    t.pc.value.toNat = s.V 0 + nnn.toNat := by
  have hpc : t.pc = regSet 16 ((s.V 0 + nnn.toNat : Nat) : Int) := by
    obtain ⟨ws, hws, rfl⟩ := exec_next h
    cases hws
    rfl
  have hV := s.V_lt 0
  rw [hpc, regSet_value_small (by omega)]

/-- `00EE` goes to the word that lies where it leaves SP (R90, R91). -/
theorem pc_value_of_exec_ret {s t : State} (h : exec .ret s = .next t) :
    t.pc.value = s.byteAt t.sp.value.toNat ++ s.byteAt (t.sp.value.toNat + 1) := by
  obtain ⟨ws, hws, rfl⟩ := exec_next h
  cases hws
  exact congrArg Reg.value (regSet_nat (w := 16) _)

/-! ### Where the skips leave PC (R85) -/

/-- A skip that does not fault plans one advance, and a second one exactly when its condition holds. -/
theorem plan_skip {i : Instr} {s : State} {ws : List Write} (hi : skips i = true) (h : plan i s.view = .ok ws) :
    ∃ c, ws = skipWrites c ∧ (c = true ↔ skipHolds s i) := by
  cases i with
  | seByte | sneByte =>
    cases h
    exact ⟨_, rfl, by simp only [decide_eq_true_eq, ne_eq, Int.natCast_inj]; rfl⟩
  | seReg | sneReg =>
    cases h
    exact ⟨_, rfl, decide_eq_true_iff⟩
  | skp | sknp => exact ⟨_, keySkip_ok h, beq_iff_eq⟩
  | _ => cases hi

/-- The advance comes on top of the handler's own write when the condition holds (R85). -/
theorem pc_of_exec_skip {i : Instr} {s t : State} (hi : skips i = true) (h : exec i s = .next t) :
    (skipHolds s i → t.pc = regAdd (regAdd s.pc 2) 2) ∧ (¬ skipHolds s i → t.pc = regAdd s.pc 2) := by
  obtain ⟨ws, hws, rfl⟩ := exec_next h
  obtain ⟨c, rfl, hc⟩ := plan_skip hi hws
  rw [← hc]
  cases c
  · exact ⟨nofun, fun _ => rfl⟩
  · exact ⟨fun _ => rfl, fun hn => absurd rfl hn⟩

/-! ### Where every other instruction leaves PC (R84) -/

/-- Bytes put into registers leave PC. -/
theorem fillRegs_pc (s : State) (ks : List RegNo) (bs : List Byte) : (fillRegs s ks bs).pc = s.pc := by
  obtain ⟨v, hv⟩ := fillRegs_rest ks bs s
  rw [hv]

/-- An instruction that neither jumps, nor skips, nor waits writes PC by its advance alone. -/
theorem pc_of_exec_plain {i : Instr} {s t : State} (hjump : jumps i = false) (hskip : skips i = false)
    (hwait : ∀ x, i ≠ .ldVxK x) (h : exec i s = .next t) : t.pc = regAdd s.pc 2 := by
  obtain ⟨ws, hws, rfl⟩ := exec_next h
  cases i with
  | ret | jp | call | jpV0 => cases hjump
  | seByte | sneByte | seReg | sneReg | skp | sknp => cases hskip
  | ldVxK x => exact absurd rfl (hwait x)
  | drw | ldB | storeRegs =>
    obtain ⟨-, rfl⟩ := accessing_ok hws
    rfl
  | loadRegs x =>
    obtain ⟨-, rfl⟩ := accessing_ok hws
    rw [List.foldl_append, ← fillRegs_eq_writes]
    exact congrArg (regAdd · 2) (fillRegs_pc s _ _)
  | _ =>
    cases hws
    rfl

/-- One advance, as a Register add and as a value. -/
theorem pc_and_value_of_advance {s t : State} (h : t.pc = regAdd s.pc 2) :
    t.pc = regAdd s.pc 2 ∧ t.pc.value = s.pc.value + 2 :=
  ⟨h, by rw [h, regAdd_two_value]⟩

/-- Two advances, as Register adds and as a value. -/
theorem pc_and_value_of_advance_twice {s t : State} (h : t.pc = regAdd (regAdd s.pc 2) 2) :
    t.pc = regAdd (regAdd s.pc 2) 2 ∧ t.pc.value = s.pc.value + 4 := by
  refine ⟨h, ?_⟩
  rw [h, regAdd_two_value, regAdd_two_value, BitVec.add_assoc]
  rfl

/-- Settles O15: the jumps, the skips, the wait for a key and the plain advance, one by one. -/
theorem programCounterAfterAnInstruction : Obligations.ProgramCounterAfterAnInstruction := by
  unfold Obligations.ProgramCounterAfterAnInstruction
  intro i s t h
  refine ⟨fun nnn hi => pc_value_of_exec_jp_or_call hi h, ?jpV0, ?ret,
    fun hi hc => pc_and_value_of_advance_twice ((pc_of_exec_skip hi h).1 hc),
    fun hi hc => pc_and_value_of_advance ((pc_of_exec_skip hi h).2 hc), ?hold, ?key,
    fun hjump hskip hwait => pc_and_value_of_advance (pc_of_exec_plain hjump hskip hwait h)⟩
  case jpV0 =>
    rintro nnn rfl
    exact pc_value_of_exec_jpV0 h
  case ret =>
    rintro rfl
    exact pc_value_of_exec_ret h
  case hold =>
    rintro ⟨x, rfl⟩ hkeys
    cases (exec_ldVxK_of_noKey x hkeys).symm.trans h
    rfl
  case key =>
    rintro ⟨x, rfl⟩ hkeys
    exact pc_and_value_of_advance (pc_of_exec_ldVxK hkeys h)

end Sys2Proof.Machine

/-! ## Control flow: jumps, call and return, register skips -/

namespace Sys2Proof.Machine

/-- An instruction that plans writes completes with them. -/
theorem exec_of_plan {i : Instr} {s : State} {ws : List Write} (h : plan i s.view = .ok ws) :
    exec i s = .next (ws.foldl Write.apply s) := by
  rw [exec_eq, h]
  rfl

/-! ### Jumps (R92, R98) -/

/-- Settles O23: each jump plans the one write of PC, and the sum of `Bnnn` fits PC. -/
theorem jumpsSetThePC : Obligations.JumpsSetThePC := by
  unfold Obligations.JumpsSetThePC
  refine ⟨encodedBy_opcodeRow (.jp 0), encodedBy_opcodeRow (.jpV0 0), fun s nnn => ⟨?jp, ?jpV0⟩⟩
  case jp =>
    have hexec := exec_of_plan (i := .jp nnn) (s := s) rfl
    exact ⟨_, hexec, rfl, pc_value_of_exec_jp_or_call (.inl rfl) hexec, exec_frame hexec⟩
  case jpV0 =>
    have hexec := exec_of_plan (i := .jpV0 nnn) (s := s) rfl
    exact ⟨_, hexec, rfl, pc_value_of_exec_jpV0 hexec, exec_frame hexec⟩

/-! ### Call and return (R90, R91, R93) -/

/-- A frame still holds when more bytes are allowed to change. -/
theorem Frame.widen_bytes {f : Footprint} {s t : State} {p : Nat → Prop} (h : Frame f s t) (hp : ∀ a, f.bytes a → p a) :
    Frame { f with bytes := p } s t :=
  { h with bytes := fun a ha => h.bytes a (mt (hp a) ha) }

/-- What two runs leave unchanged, they leave unchanged in a row. -/
theorem Frame.trans {f : Footprint} {s t u : State} (h : Frame f s t) (h' : Frame f t u) : Frame f s u where
  regs r hr := (h'.regs r hr).trans (h.regs r hr)
  index hf := (h'.index hf).trans (h.index hf)
  stack hf := (h'.stack hf).trans (h.stack hf)
  delay hf := (h'.delay hf).trans (h.delay hf)
  sound hf := (h'.sound hf).trans (h.sound hf)
  bytes a ha := (h'.bytes a ha).trans (h.bytes a ha)
  screen hf := ⟨(h'.screen hf).1.trans (h.screen hf).1, (h'.screen hf).2.trans (h.screen hf).2⟩
  draw hf := (h'.draw hf).trans (h.draw hf)
  status := h'.status.trans h.status
  params := h'.params.trans h.params
  keys := h'.keys.trans h.keys
  schedule := h'.schedule.trans h.schedule

/-- What a call in the state `s` may change: SP and the two bytes of the stack cell at SP (R90). -/
def callFootprint (s : State) : Footprint :=
  { stack := True, bytes := fun a => a = s.sp.value.toNat ∨ a = s.sp.value.toNat + 1 }

/-- A call completes: the return address in the cell at SP, SP raised, PC at the target (R93). -/
theorem exec_call (s : State) (nnn : Addr12) :
    ∃ t, exec (.call nnn) s = .next t ∧ t.pc = regSet 16 nnn.toNat ∧ t.sp = regAdd s.sp 2 ∧
      t.byteAt s.sp.value.toNat ++ t.byteAt (s.sp.value.toNat + 1) = s.pc.value + 2 ∧ Frame (callFootprint s) s t := by
  have hexec := exec_of_plan (i := .call nnn) (s := s) rfl
  have hcell : ∀ a, storesTo s (.call nnn) a → a = s.sp.value.toNat ∨ a = s.sp.value.toNat + 1 := by
    rintro a ⟨hlow, hhigh⟩
    omega
  exact ⟨_, hexec, rfl, rfl, s.wordAt_withBytes _ _, (exec_frame hexec).widen_bytes hcell⟩

/-- A return completes: SP lowered, PC the word in the cell there (R91). -/
theorem exec_ret (s : State) :
    ∃ t, exec .ret s = .next t ∧ t.sp = regAdd s.sp (-2) ∧
      t.pc = regSet 16 (s.byteAt t.sp.value.toNat ++ s.byteAt (t.sp.value.toNat + 1)).toNat ∧
      Frame { stack := True } s t := by
  have hexec := exec_of_plan (i := .ret) (s := s) rfl
  exact ⟨_, hexec, rfl, rfl, exec_frame hexec⟩

/-- Raising SP by 2 and lowering it by 2 gives the value before, the wrapping ones included (R12). -/
theorem regAdd_two_regAdd_neg_two_value (r : Reg 8) : (regAdd (regAdd r 2) (-2)).value = r.value := by
  rw [regAdd, regSet_value_add, regAdd, regSet_value_add, BitVec.add_assoc]
  exact BitVec.add_zero r.value

/-- Settles O24, by the writes that a call plans. -/
theorem callPushesTheReturnAddress : Obligations.CallPushesTheReturnAddress := by
  unfold Obligations.CallPushesTheReturnAddress
  exact ⟨encodedBy_opcodeRow (.call 0), exec_call⟩

/-- Settles O25: a return directly after a call pops the cell that the call pushed, since SP is back at it. -/
theorem returnPopsIntoThePC : Obligations.ReturnPopsIntoThePC := by
  unfold Obligations.ReturnPopsIntoThePC
  refine ⟨encodedBy_opcodeRow .ret, exec_ret, fun s nnn => ?_⟩
  obtain ⟨t, hcall, -, hsp, hword, hframe⟩ := exec_call s nnn
  obtain ⟨u, hret, hsp', hpc, hframe'⟩ := exec_ret t
  have hback : u.sp.value = s.sp.value := by rw [hsp', hsp, regAdd_two_regAdd_neg_two_value]
  have hresume : u.pc.value = s.pc.value + 2 := by
    rw [hpc, hback, hword, regSet_nat]
    rfl
  exact ⟨t, u, hcall, hret, hresume, hback, hframe.trans (hframe'.widen_bytes fun _ => False.elim)⟩

/-! ### Register skips (R94 to R97) -/

/-- A skip changes nothing but PC (R85). -/
theorem footprint_of_skips {i : Instr} (s : State) (hi : skips i = true) : footprint s i = {} := by
  cases i with
  | seByte | sneByte | seReg | sneReg | skp | sknp => rfl
  | _ => cases hi

/-- A skip that plans its advances completes, two words on when its condition holds and one word on otherwise (R85). -/
theorem exec_skip {i : Instr} {s : State} {c : Bool} {p : Prop} [Decidable p] (hi : skips i = true)
    (hp : skipHolds s i ↔ p) (h : plan i s.view = .ok (skipWrites c)) :
    ∃ t, exec i s = .next t ∧ t.pc.value = (if p then s.pc.value + 4 else s.pc.value + 2) ∧ Frame {} s t := by
  have hexec := exec_of_plan h
  obtain ⟨hskip, hnext⟩ := pc_of_exec_skip hi hexec
  refine ⟨_, hexec, ?_, footprint_of_skips s hi ▸ exec_frame hexec⟩
  split
  · next hc => exact (pc_and_value_of_advance_twice (hskip (hp.2 hc))).2
  · next hc => exact (pc_and_value_of_advance (hnext (mt hp.1 hc))).2

/-- Settles O26: the comparison of each register skip is its condition, negated in `4xnn` and `9xy0`. -/
theorem skipsOnRegisters : Obligations.SkipsOnRegisters := by
  unfold Obligations.SkipsOnRegisters
  refine ⟨encodedBy_opcodeRow (.seByte 0 0), encodedBy_opcodeRow (.sneByte 0 0), encodedBy_opcodeRow (.seReg 0 0),
    encodedBy_opcodeRow (.sneReg 0 0), fun s x y nn => ⟨exec_skip rfl Iff.rfl rfl, ?sneByte,
    exec_skip rfl Iff.rfl rfl, ?sneReg⟩⟩
  case sneByte =>
    simpa only [ite_not] using exec_skip (i := .sneByte x nn) (p := ¬ s.V x = nn.toNat) rfl Iff.rfl rfl
  case sneReg =>
    simpa only [ite_not] using exec_skip (i := .sneReg x y) (p := ¬ s.V x = s.V y) rfl Iff.rfl rfl

end Sys2Proof.Machine

/-! ## Load, add, logic and random byte -/

namespace Sys2Proof.Machine

/-! ### One register written (R100 to R105) -/

/-- An instruction that plans one register and the advance completes with both, inside its own footprint. -/
theorem exec_regWrite {i : Instr} {s : State} {x : RegNo} {v : Int} (h : plan i s.view = .ok [.reg x v, .advance]) :
    ∃ t, exec i s = .next t ∧ t.reg x = regSet 8 v ∧ t.pc = regAdd s.pc 2 ∧ Frame (footprint s i) s t := by
  have hexec := exec_of_plan h
  exact ⟨_, hexec, s.setV_reg_same x v, rfl, exec_frame hexec⟩

/-- A byte put into a register is the value of that register. -/
theorem exec_byteWrite {i : Instr} {s : State} {x : RegNo} (b : Byte)
    (h : plan i s.view = .ok [.reg x b.toNat, .advance]) :
    ∃ t, exec i s = .next t ∧ t.reg x = regSet 8 b.toNat ∧ t.V x = b.toNat ∧ t.pc = regAdd s.pc 2 ∧
      Frame (footprint s i) s t := by
  obtain ⟨t, hexec, hx, hpc, hframe⟩ := exec_regWrite h
  exact ⟨t, hexec, hx, by rw [State.V, hx, regSet_value_small b.isLt], hpc, hframe⟩

/-- A sum written to an 8-bit register is stored modulo 256. -/
theorem regSet_add_value (a b : Nat) : (regSet 8 ((a : Int) + b)).value.toNat = (a + b) % 256 := by
  have := regSet_value 8 ((a : Int) + b)
  omega

/-- Settles O16: `6xnn` plans the byte, `7xnn` the sum. -/
theorem loadAndAddByte : Obligations.LoadAndAddByte := by
  unfold Obligations.LoadAndAddByte
  refine ⟨encodedBy_opcodeRow (.ldByte 0 0), encodedBy_opcodeRow (.addByte 0 0), fun s x nn =>
    ⟨exec_byteWrite nn rfl, ?addByte⟩⟩
  case addByte =>
    obtain ⟨t, hexec, hx, hpc, hframe⟩ := exec_regWrite (i := .addByte x nn) (s := s) rfl
    exact ⟨t, hexec, hx, by rw [State.V, hx]; exact regSet_add_value (s.V x) nn.toNat, hpc, hframe⟩

/-- Settles O17: each of the four plans one byte, and a bitwise operation on bytes is the one on their values. -/
theorem moveAndLogic : Obligations.MoveAndLogic := by
  unfold Obligations.MoveAndLogic
  exact ⟨encodedBy_opcodeRow (.ldReg 0 0), encodedBy_opcodeRow (.orReg 0 0), encodedBy_opcodeRow (.andReg 0 0),
    encodedBy_opcodeRow (.xorReg 0 0), fun s x y =>
      ⟨exec_byteWrite (s.bits y) rfl, exec_byteWrite (s.bits x ||| s.bits y) rfl,
        exec_byteWrite (s.bits x &&& s.bits y) rfl, exec_byteWrite (s.bits x ^^^ s.bits y) rfl⟩⟩

/-! ### Add with carry, and the subtract that undoes it (R106, R107) -/

/-- The overflow of a sum is its carry out of 8 bits. -/
theorem overflow_add (a b : Nat) :
    ((regSet 8 ((a : Int) + b)).overflowed.toNat : Int) = if 256 ≤ a + b then 1 else 0 := by
  rw [regSet_overflowed]
  split
  · next h => rw [decide_eq_true (by omega)]; rfl
  · next h => rw [decide_eq_false (by omega)]; rfl

/-- Settles O18: the add plans the sum and its overflow, both of the operands before it. -/
theorem addWithCarryToVF : Obligations.AddWithCarryToVF := by
  unfold Obligations.AddWithCarryToVF
  refine ⟨encodedBy_opcodeRow (.addReg 0 0), fun s x y => ?_⟩
  obtain ⟨t, hexec, hx, hf, hpc, hframe⟩ := exec_flagWrites (i := .addReg x y) (s := s) rfl
  refine ⟨t, hexec, hx, fun hxF => ?_, hf.trans (congrArg (regSet 8) (overflow_add (s.V x) (s.V y))), hpc, hframe⟩
  rw [State.V, hx hxF]
  exact regSet_add_value (s.V x) (s.V y)

/-- A register outside the footprint keeps its value. -/
theorem Frame.V_eq {f : Footprint} {s t : State} (h : Frame f s t) {r : RegNo} (hr : ¬ f.regs r) : t.V r = s.V r := by
  rw [State.V, h.regs r hr, State.V]

/-- The value of a register that holds a flag. -/
theorem V_of_reg_eq_flag {s : State} {r : RegNo} {p : Prop} [Decidable p] (h : s.reg r = regSet 8 (if p then 1 else 0)) :
    s.V r = if p then 1 else 0 := by
  rw [State.V, h]
  split <;> rfl

/-- Settles O20: the difference undoes the sum modulo 256, and it borrows exactly when the sum carried. -/
theorem addThenSubtractRestoresVx : Obligations.AddThenSubtractRestoresVx := by
  unfold Obligations.AddThenSubtractRestoresVx
  intro s x y hxy hxF hyF
  obtain ⟨-, hadd⟩ := addWithCarryToVF
  obtain ⟨-, -, hsub⟩ := subtractWithNotBorrowToVF
  obtain ⟨t, hexec, -, hsum, hcarry, hpc, hframe⟩ := hadd s x y
  obtain ⟨u, hexec', -, hdifference, hnotBorrow, hpc', hframe'⟩ := (hsub t x y).1
  have hy : ¬ (y = x ∨ y = VF) := not_or.2 ⟨hxy.symm, hyF⟩
  have hkept : t.V y = s.V y := hframe.V_eq hy
  have hkept' : u.V y = t.V y := hframe'.V_eq hy
  have hVx := s.V_lt x
  have hVy := s.V_lt y
  have hsum := hsum hxF
  have hborrow : t.V y ≤ t.V x ↔ ¬ 256 ≤ s.V x + s.V y := by omega
  refine ⟨t, u, hexec, hexec', ?x, hkept'.trans hkept, ?flag, ?pc⟩
  case x =>
    have hdifference := hdifference hxF
    omega
  case flag =>
    rw [V_of_reg_eq_flag hnotBorrow, V_of_reg_eq_flag hcarry]
    simp only [hborrow, ite_not]
    split <;> rfl
  case pc => exact (pc_and_value_of_advance_twice (hpc ▸ hpc')).2

/-! ### The random byte (R111) -/

/-- Settles O22: the drawn byte is masked before it is written, so a bit that is 0 in the mask is 0 in Vx. -/
theorem randomByteIsMasked : Obligations.RandomByteIsMasked := by
  unfold Obligations.RandomByteIsMasked
  refine ⟨encodedBy_opcodeRow (.rnd 0 0), fun s x nn => ?_⟩
  have hexec := exec_of_plan (i := .rnd x nn) (s := s) rfl
  have hx := s.nextDraw.setV_reg_same x (Config.randomByte s.draws &&& nn).toNat
  refine ⟨_, hexec, hx, fun k hk => ?_, rfl, rfl, exec_frame hexec⟩
  show ((s.nextDraw.setV x (Config.randomByte s.draws &&& nn).toNat).reg x).value.getLsbD k = false
  rw [hx, regSet_nat]
  show (Config.randomByte s.draws &&& nn).getLsbD k = false
  rw [BitVec.getLsbD_and, hk, Bool.and_false]

end Sys2Proof.Machine

/-! ## Index register, memory transfers, and the instructions that fault -/

namespace Sys2Proof.Machine

/-! ### Which instructions fault (R153, R154) -/

/-- An instruction faults exactly when it decides on that fault. -/
theorem exec_fault_iff {i : Instr} {s : State} {f : Fault} : exec i s = .fault f ↔ plan i s.view = .error f := by
  rw [exec_eq]
  cases plan i s.view <;> simp [perform]

/-- An instruction that accesses `count` bytes from I faults exactly when the last of them is past memory (R153). -/
theorem exec_accessing_fault_iff {i : Instr} {s : State} {count : Nat} {ws : List Write} {f : Fault}
    (h : plan i s.view = accessing s.view i count ws) :
    exec i s = .fault f ↔ (1 ≤ count ∧ 4095 < s.i.value.toNat + count - 1) ∧
      f = .addressRange { pc0 := s.pc.value, opcode := encode i, value := max s.i.value.toNat 4096 } := by
  have hindex : s.view.index = s.i.value := rfl
  rw [exec_fault_iff, h, accessing, hindex]
  split
  · next hin =>
    have hinside : ¬ (1 ≤ count ∧ 4095 < s.i.value.toNat + count - 1) := by omega
    simp [hinside]
  · next hout =>
    have hpast : 1 ≤ count ∧ 4095 < s.i.value.toNat + count - 1 := by omega
    rw [Except.error.injEq, eq_comm, and_iff_right hpast]
    rfl

/-- A keypad skip faults exactly when Vx is no key code (R154). -/
theorem exec_keySkip_fault_iff {i : Instr} {s : State} {x : RegNo} {wanted : Bool} {f : Fault}
    (h : plan i s.view = keySkip s.view i x wanted) :
    exec i s = .fault f ↔
      15 < s.V x ∧ f = .keyCodeRange { pc0 := s.pc.value, opcode := encode i, value := s.V x } := by
  have hV : s.view.V x = s.V x := rfl
  rw [exec_fault_iff, h, keySkip, hV]
  split
  · next hout =>
    rw [Except.error.injEq, eq_comm, and_iff_right hout]
    rfl
  · next hin => simp [hin]

/-- Settles O13: four instructions plan an access and two a keypad skip; all the others plan writes and no fault. -/
theorem onlyTheseInstructionsFault : Obligations.OnlyTheseInstructionsFault := by
  unfold Obligations.OnlyTheseInstructionsFault
  intro i s f
  cases i with
  | drw x y n => simp [exec_accessing_fault_iff (i := .drw x y n) (s := s) rfl]
  | ldB x => simp [exec_accessing_fault_iff (i := .ldB x) (s := s) rfl]
  | storeRegs x => simp [exec_accessing_fault_iff (i := .storeRegs x) (s := s) rfl]
  | loadRegs x => simp [exec_accessing_fault_iff (i := .loadRegs x) (s := s) rfl]
  | skp x => simp [exec_keySkip_fault_iff (i := .skp x) (s := s) rfl]
  | sknp x => simp [exec_keySkip_fault_iff (i := .sknp x) (s := s) rfl]
  | _ => simp [exec_fault_iff, plan]

/-! ### I written (R120 to R122) -/

/-- An instruction that plans I and the advance completes with both, inside its own footprint. -/
theorem exec_indexWrite {i : Instr} {s : State} {v : Int} (h : plan i s.view = .ok [.index v, .advance]) :
    ∃ t, exec i s = .next t ∧ t.i = regSet 16 v ∧ t.pc = regAdd s.pc 2 ∧ Frame (footprint s i) s t := by
  have hexec := exec_of_plan h
  exact ⟨_, hexec, rfl, rfl, exec_frame hexec⟩

/-- Settles O28: `Annn` plans an address that fits I, `Fx1E` a sum that wraps in I. -/
theorem indexLoadAndAdd : Obligations.IndexLoadAndAdd := by
  unfold Obligations.IndexLoadAndAdd
  refine ⟨encodedBy_opcodeRow (.ldI 0), encodedBy_opcodeRow (.addI 0), fun s x nnn => ⟨?load, ?add⟩⟩
  case load =>
    obtain ⟨t, hexec, hi, hpc, hframe⟩ := exec_indexWrite (i := .ldI nnn) (s := s) rfl
    exact ⟨t, hexec, hi, by rw [hi, regSet_value_small (by omega)], hpc, hframe⟩
  case add =>
    obtain ⟨t, hexec, hi, hpc, hframe⟩ := exec_indexWrite (i := .addI x) (s := s) rfl
    have hsum : t.i = regSet 16 ((s.i.value.toNat + s.V x : Nat) : Int) := hi
    exact ⟨t, hexec, hi, by rw [hsum, regSet_value_nat, BitVec.toNat_ofNat], hpc, hframe⟩

theorem glyphAddress_eq (v : Nat) : glyphAddress v = 5 * v := Nat.zero_add _

/-- Settles O29: the glyph's address is five times a byte, which fits I. -/
theorem glyphAddressIsFiveTimesVx : Obligations.GlyphAddressIsFiveTimesVx := by
  unfold Obligations.GlyphAddressIsFiveTimesVx
  refine ⟨encodedBy_opcodeRow (.ldF 0), fun s x => ?_⟩
  obtain ⟨t, hexec, hi, hpc, hframe⟩ := exec_indexWrite (i := .ldF x) (s := s) rfl
  have hi : t.i = regSet 16 ((5 * s.V x : Nat) : Int) := glyphAddress_eq (s.V x) ▸ hi
  have hV := s.V_lt x
  exact ⟨t, hexec, hi, by rw [hi, regSet_value_small (by omega)], hpc, hframe⟩

/-! ### Memory transfers (R123 to R125) -/

/-- An instruction whose accesses all lie in memory performs the writes that it plans with them. -/
theorem exec_of_access_inside {i : Instr} {s : State} {count : Nat} {ws : List Write}
    (h : plan i s.view = accessing s.view i count ws) (hin : s.i.value.toNat + count ≤ 4096) :
    exec i s = .next (ws.foldl Write.apply s) :=
  exec_of_plan (h.trans (if_pos (.inr hin)))

/-- The digits of a byte, as numbers. -/
theorem decimalDigits_toNat {v : Nat} (hv : v < 256) :
    (decimalDigits v).map BitVec.toNat = [v / 100, v / 10 % 10, v % 10] := by
  simp only [decimalDigits, List.map_cons, List.map_nil, BitVec.toNat_ofNat, List.cons.injEq, and_true]
  omega

/-- A digit store that completes leaves digit `k`, the hundreds first, at address `I + k` (R123). -/
theorem byteAt_of_exec_ldB {s t : State} {x : RegNo} {k d : Nat} (h : exec (.ldB x) s = .next t)
    (hd : [s.V x / 100, s.V x / 10 % 10, s.V x % 10][k]? = some d) :
    (t.byteAt (s.i.value.toNat + k)).toNat = d := by
  obtain ⟨ws, hws, rfl⟩ := exec_next h
  obtain ⟨-, rfl⟩ := accessing_ok hws
  rw [← decimalDigits_toNat (s.V_lt x)] at hd
  obtain ⟨hk, rfl⟩ := List.getElem?_eq_some_iff.1 hd
  rw [List.getElem_map]
  exact congrArg BitVec.toNat (s.byteAt_withBytes_inside _ k (decimalDigits (s.V x)) (by simpa using hk))

/-- Settles O30: the digits are stored in a row from I, and a store that would leave memory is one of the faults. -/
theorem decimalDigitsAreStored : Obligations.DecimalDigitsAreStored := by
  unfold Obligations.DecimalDigitsAreStored
  refine ⟨encodedBy_opcodeRow (.ldB 0), fun s x => ⟨fun hin => ?stored, fun hout => ?fault⟩⟩
  case stored =>
    have hexec := exec_of_access_inside (i := .ldB x) (s := s) rfl (Nat.succ_le_of_lt hin)
    refine ⟨_, hexec, byteAt_of_exec_ldB (k := 0) hexec rfl, byteAt_of_exec_ldB (k := 1) hexec rfl,
      byteAt_of_exec_ldB (k := 2) hexec rfl, rfl, (exec_frame hexec).widen_bytes ?_⟩
    exact fun a ⟨hlow, hhigh⟩ => ⟨hlow, Nat.le_of_lt_succ hhigh⟩
  case fault =>
    exact (onlyTheseInstructionsFault _ s _).2 (.inl ⟨.inr (.inl ⟨x, rfl, hout⟩), rfl⟩)

/-- Settles O31: the registers are stored in a row from I, and a store that would leave memory is one of the faults. -/
theorem registersAreStored : Obligations.RegistersAreStored := by
  unfold Obligations.RegistersAreStored
  refine ⟨encodedBy_opcodeRow (.storeRegs 0), fun s x => ⟨fun hin => ?stored, fun hout => ?fault⟩⟩
  case stored =>
    have hexec := exec_of_access_inside (i := .storeRegs x) (s := s) rfl (Nat.succ_le_of_lt hin)
    refine ⟨_, hexec, fun k hk => (byteAt_of_exec_storeRegs hexec hk).2, rfl, (exec_frame hexec).widen_bytes ?_⟩
    exact fun a ⟨hlow, hhigh⟩ => ⟨hlow, Nat.le_of_lt_succ hhigh⟩
  case fault =>
    exact (onlyTheseInstructionsFault _ s _).2 (.inl ⟨.inr (.inr ⟨x, .inl rfl, hout⟩), rfl⟩)

/-- Bytes put into `V0..Vx` stand there in order. -/
theorem fillRegs_regsUpTo (s : State) {x k : RegNo} (hk : k ≤ x) (bs : List Byte) (hlen : bs.length = x.val + 1) :
    (fillRegs s (regsUpTo x) bs).reg k = Reg.initial (bs[k.val]'(hlen ▸ Nat.lt_succ_of_le hk)) := by
  have hlt : k.val < (regsUpTo x).length := regsUpTo_length x ▸ Nat.lt_succ_of_le hk
  have hget : (regsUpTo x)[k.val] = k := Fin.ext (regsUpTo_getElem x k.val hlt)
  have hfill := fillRegs_get (regsUpTo x) bs s (regsUpTo_nodup x) (by rw [regsUpTo_length, hlen]) k.val hlt
    (hlen ▸ Nat.lt_succ_of_le hk)
  rwa [hget] at hfill

/-- A register load that completes leaves the byte at address `I + k` in register `k` (R125). -/
theorem reg_of_exec_loadRegs {s t : State} {x k : RegNo} (h : exec (.loadRegs x) s = .next t) (hk : k ≤ x) :
    t.reg k = Reg.initial (s.byteAt (s.i.value.toNat + k.val)) := by
  obtain ⟨ws, hws, rfl⟩ := exec_next h
  obtain ⟨-, rfl⟩ := accessing_ok hws
  rw [List.foldl_append, ← fillRegs_eq_writes]
  refine (fillRegs_regsUpTo s hk _ (by simp [View.bytesAtIndex])).trans ?_
  simp [View.bytesAtIndex, State.view]

/-- Settles O32: the bytes from I are put into the registers in order; a load that would leave memory is one of the
faults. -/
theorem registersAreLoaded : Obligations.RegistersAreLoaded := by
  unfold Obligations.RegistersAreLoaded
  refine ⟨encodedBy_opcodeRow (.loadRegs 0), fun s x => ⟨fun hin => ?loaded, fun hout => ?fault⟩⟩
  case loaded =>
    have hexec := exec_of_access_inside (i := .loadRegs x) (s := s) rfl (Nat.succ_le_of_lt hin)
    refine ⟨_, hexec, fun k hk => ?_, fun k hk => congrArg Reg.value (reg_of_exec_loadRegs hexec hk),
      pc_of_exec_plain (i := .loadRegs x) rfl rfl nofun hexec, exec_frame hexec⟩
    rw [reg_of_exec_loadRegs hexec hk, regSet_nat]
  case fault =>
    exact (onlyTheseInstructionsFault _ s _).2 (.inl ⟨.inr (.inr ⟨x, .inr rfl, hout⟩), rfl⟩)

end Sys2Proof.Machine

/-! ## Display: clearing the screen, drawing a sprite, and drawing it twice -/

namespace Sys2Proof.Machine

/-! ### Clear (R131) -/

/-- Settles O34: `00E0` plans the clear framebuffer and the advance, no more. -/
theorem clearScreen : Obligations.ClearScreen := by
  unfold Obligations.ClearScreen
  refine ⟨encodedBy_opcodeRow .cls, fun s => ?_⟩
  have hexec := exec_of_plan (i := .cls) (s := s) rfl
  exact ⟨_, hexec, Framebuffer.get_clear, fbDirty_of_exec_screen (.inl rfl) hexec, rfl, exec_frame hexec⟩

/-! ### Draw (R132, R133) -/

/-- The blit of `Dxyn`, told by the covered pixels: those flip, the others stay, and a collision is a covered pixel that
was lit (R133). -/
theorem view_blit_spec (s : State) (x y : RegNo) (n : RowCount) :
    (∀ px py, SpriteCovers s (s.V x) (s.V y) n.val px py →
      Framebuffer.get (s.view.blit x y n).fb px py = !s.pixel px py) ∧
    (∀ px py, ¬ SpriteCovers s (s.V x) (s.V y) n.val px py →
      Framebuffer.get (s.view.blit x y n).fb px py = s.pixel px py) ∧
    ((s.view.blit x y n).collided = true ↔
      ∃ px py, SpriteCovers s (s.V x) (s.V y) n.val px py ∧ s.pixel px py = true) := by
  have hrows : 0 + (s.view.bytesAtIndex n.val).length ≤ 16 := by
    simp only [View.bytesAtIndex, List.length_map, List.length_range']
    omega
  obtain ⟨hflipped, hkept, hcollided⟩ :=
    blitRows_spec (s.V x) (s.V y) (s.view.bytesAtIndex n.val) 0 { fb := s.fb, collided := false } hrows
  simp only [spriteCovers_iff]
  exact ⟨hflipped, hkept, hcollided.trans (or_iff_right Bool.false_ne_true)⟩

/-- A draw whose rows all lie in memory completes with its blit: the framebuffer, and the collision in VF. -/
theorem exec_drw_inside {s : State} (x y : RegNo) {n : RowCount} (hin : n.val = 0 ∨ s.i.value.toNat + n.val ≤ 4096) :
    ∃ t, exec (.drw x y n) s = .next t ∧ t.fb = (s.view.blit x y n).fb ∧
      t.reg VF = regSet 8 (collisionFlag (s.view.blit x y n).collided) ∧
      t.fbDirty = true ∧ t.pc = regAdd s.pc 2 ∧ Frame { regs := fun r => r = VF, screen := True } s t := by
  have hexec := exec_of_plan (i := .drw x y n) (s := s) (if_pos hin)
  exact ⟨_, hexec, rfl, (s.setV VF 0).setV_reg_same VF _, rfl, rfl, exec_frame hexec⟩

/-- Settles O35: a draw inside memory completes with the blit of the covered pixels, one that reaches past memory is one
of the faults. -/
theorem spriteDrawFlipsCoveredPixels : Obligations.SpriteDrawFlipsCoveredPixels := by
  unfold Obligations.SpriteDrawFlipsCoveredPixels
  refine ⟨encodedBy_opcodeRow (.drw 0 0 0), fun s x y n => ⟨fun hin => ?drawn, fun hrows hout => ?fault⟩⟩
  case drawn =>
    obtain ⟨hflipped, hkept, hcollided⟩ := view_blit_spec s x y n
    obtain ⟨t, hexec, hfb, hflag, hdirty, hpc, hframe⟩ := exec_drw_inside x y hin
    have hpixel : ∀ px py, t.pixel px py = Framebuffer.get (s.view.blit x y n).fb px py :=
      fun px py => congrArg (Framebuffer.get · px py) hfb
    refine ⟨t, hexec, fun px py h => (hpixel px py).trans (hflipped px py h),
      fun px py h => (hpixel px py).trans (hkept px py h), fun hlit => ?collision, fun hnone => ?noCollision,
      hdirty, hpc, hframe⟩
    case collision => rw [hflag, hcollided.2 hlit]; rfl
    case noCollision => rw [hflag, Bool.eq_false_iff.2 (mt hcollided.1 hnone)]; rfl
  case fault =>
    exact (onlyTheseInstructionsFault _ s _).2 (.inl ⟨.inl ⟨x, y, n, rfl, hrows, by omega⟩, rfl⟩)

/-! ### Drawing twice (R132) -/

/-- A sprite covers the same pixels after a run that leaves I and memory unchanged. -/
theorem Frame.spriteCovers_iff {f : Footprint} {s t : State} (h : Frame f s t) (hi : ¬ f.index)
    (hbytes : ∀ a, ¬ f.bytes a) (vx vy n : Nat) (px : Fin 64) (py : Fin 32) :
    SpriteCovers t vx vy n px py ↔ SpriteCovers s vx vy n px py := by
  simp only [SpriteCovers, State.ea, h.index hi, h.bytes _ (hbytes _)]

/-- Settles O36: the second draw covers the pixels of the first, flips them back, and collides where the first lit one. -/
theorem drawingTwiceRestoresTheScreen : Obligations.DrawingTwiceRestoresTheScreen := by
  unfold Obligations.DrawingTwiceRestoresTheScreen
  intro s x y n hxF hyF hin
  obtain ⟨-, hdraw⟩ := spriteDrawFlipsCoveredPixels
  obtain ⟨t, hexec, hflipped, hkept, -, -, -, -, hframe⟩ := (hdraw s x y n).1 hin
  have hin' : n.val = 0 ∨ t.i.value.toNat + n.val ≤ 4096 := by rwa [hframe.index not_false]
  obtain ⟨u, hexec', hflipped', hkept', hlit', hnone', -⟩ := (hdraw t x y n).1 hin'
  simp only [hframe.V_eq hxF, hframe.V_eq hyF, hframe.spriteCovers_iff not_false fun _ => not_false]
    at hflipped' hkept' hlit' hnone'
  have hsecond : (∃ px py, SpriteCovers s (s.V x) (s.V y) n.val px py ∧ t.pixel px py = true) ↔
      ∃ px py, SpriteCovers s (s.V x) (s.V y) n.val px py ∧ s.pixel px py = false := by
    refine exists₂_congr fun px py => and_congr_right fun hcovers => ?_
    rw [hflipped px py hcovers, Bool.not_eq_true']
  refine ⟨t, u, hexec, hexec', Framebuffer.ext fun px py => ?pixel, ?flag⟩
  case pixel =>
    show u.pixel px py = s.pixel px py
    by_cases hcovers : SpriteCovers s (s.V x) (s.V y) n.val px py
    · rw [hflipped' px py hcovers, hflipped px py hcovers, Bool.not_not]
    · rw [hkept' px py hcovers, hkept px py hcovers]
  case flag =>
    rw [← hsecond]
    constructor
    · intro hone
      by_contra hnone
      rw [State.V, hnone' hnone] at hone
      exact absurd hone (by decide)
    · intro hlit
      rw [State.V, hlit' hlit]
      rfl

end Sys2Proof.Machine

/-! ## Keypad skips, timer transfers, ticks -/

namespace Sys2Proof.Machine

/-! ### Keypad skips (R140, R141, R154) -/

/-- A keypad skip whose Vx is a key code completes, two words on when its condition holds and one word on otherwise. -/
theorem exec_keySkip {i : Instr} {s : State} {x : RegNo} {wanted : Bool} {p : Prop} [Decidable p] (hi : skips i = true)
    (hp : skipHolds s i ↔ p) (h : plan i s.view = keySkip s.view i x wanted) (hcode : s.V x ≤ 15) :
    ∃ t, exec i s = .next t ∧ t.pc.value = (if p then s.pc.value + 4 else s.pc.value + 2) ∧ Frame {} s t :=
  exec_skip hi hp (h.trans (if_neg (Nat.not_lt.2 hcode)))

/-- Settles O27: a key code lets the skip look at that key's level, any other value of Vx is one of the faults. -/
theorem skipsOnKeys : Obligations.SkipsOnKeys := by
  unfold Obligations.SkipsOnKeys
  refine ⟨encodedBy_opcodeRow (.skp 0), encodedBy_opcodeRow (.sknp 0),
    fun s x => ⟨fun hcode => ⟨exec_keySkip rfl Iff.rfl rfl hcode, ?sknp⟩, fun hnone => ?fault⟩⟩
  case sknp =>
    simpa only [ite_not] using exec_keySkip (i := .sknp x) (p := ¬ s.keys.getLsbD (s.V x) = true) rfl
      Bool.eq_false_iff rfl hcode
  case fault =>
    exact ⟨(exec_keySkip_fault_iff rfl).2 ⟨hnone, rfl⟩, (exec_keySkip_fault_iff rfl).2 ⟨hnone, rfl⟩⟩

/-! ### Timers and registers (R142, R144, R145) -/

/-- Settles O38: each transfer plans its destination and the advance, and a byte fits an 8-bit register. -/
theorem timerRegisterTransfers : Obligations.TimerRegisterTransfers := by
  unfold Obligations.TimerRegisterTransfers
  have hbyte (b : Byte) : (regSet 8 (b.toNat : Int)).value = b := congrArg Reg.value (regSet_nat b)
  refine ⟨encodedBy_opcodeRow (.ldVxDt 0), encodedBy_opcodeRow (.ldDtVx 0), encodedBy_opcodeRow (.ldStVx 0),
    fun s x => ⟨?fromDelay, ?toDelay, ?toSound⟩⟩
  case fromDelay =>
    obtain ⟨t, hexec, hx, hpc, hframe⟩ := exec_regWrite (i := .ldVxDt x) (s := s) rfl
    exact ⟨t, hexec, hx, hx ▸ hbyte s.dt.value, hpc, hframe⟩
  case toDelay =>
    have hexec := exec_of_plan (i := .ldDtVx x) (s := s) rfl
    exact ⟨_, hexec, rfl, hbyte (s.reg x).value, rfl, exec_frame hexec⟩
  case toSound =>
    have hexec := exec_of_plan (i := .ldStVx x) (s := s) rfl
    exact ⟨_, hexec, rfl, hbyte (s.reg x).value, rfl, exec_frame hexec⟩

/-! ### Ticks (R146) -/

/-- One tick of a timer: the value falls by 1, floored at 0. -/
theorem tickReg_value (r : Reg 8) : (tickReg r).value.toNat = r.value.toNat - 1 := by
  unfold tickReg
  split
  · next h => rw [h]; rfl
  · next h => exact BitVec.toNat_sub_of_le (by bv_omega)

@[simp] theorem tickReg_overflowed (r : Reg 8) : (tickReg r).overflowed = r.overflowed := by
  unfold tickReg
  split <;> rfl

@[simp] theorem tickReg_borrowed (r : Reg 8) : (tickReg r).borrowed = r.borrowed := by
  unfold tickReg
  split <;> rfl

/-- `n` ticks of a timer: the value falls by `n`, floored at 0, and the flags stay. -/
theorem tickReg_iterate (n : Nat) (r : Reg 8) :
    (tickReg^[n] r).value.toNat = r.value.toNat - n ∧ (tickReg^[n] r).overflowed = r.overflowed ∧
      (tickReg^[n] r).borrowed = r.borrowed := by
  induction n with
  | zero => exact ⟨rfl, rfl, rfl⟩
  | succ n ih =>
    obtain ⟨hvalue, hoverflowed, hborrowed⟩ := ih
    rw [Function.iterate_succ_apply']
    refine ⟨?_, (tickReg_overflowed _).trans hoverflowed, (tickReg_borrowed _).trans hborrowed⟩
    rw [tickReg_value, hvalue, Nat.sub_sub]

/-- A tick of a running machine is the tick of its two timers. -/
theorem step_tick {s : State} {rest : List HostEvent} (hrun : s.status = .running) (hs : s.schedule = .tick :: rest) :
    step s = .next { s with schedule := rest }.tick := by
  rw [step_of_schedule_cons hs]
  exact whenRunning_running (s := { s with schedule := rest }) hrun

/-- `n` ticks of a running machine are `n` ticks of each timer. -/
theorem stepN_ticks {n : Nat} {s : State} {rest : List HostEvent} (hrun : s.status = .running)
    (hs : s.schedule = List.replicate n .tick ++ rest) :
    stepN n s = .next { s with dt := tickReg^[n] s.dt, st := tickReg^[n] s.st, schedule := rest } := by
  induction n generalizing s with
  | zero =>
    obtain rfl : s.schedule = rest := hs
    rfl
  | succ n ih =>
    rw [stepN, step_tick hrun hs]
    exact ih (s := { s with schedule := List.replicate n HostEvent.tick ++ rest }.tick) hrun rfl

/-- A tick leaves all but the two timers. -/
theorem State.tick_frame (s : State) : Frame { delay := True, sound := True } s s.tick :=
  { Frame.refl _ s with delay := fun h => absurd trivial h, sound := fun h => absurd trivial h }

/-- Settles O39: a tick is the tick of both timers, ticks in a row iterate it, and a stopped machine answers no next
state. -/
theorem tickLowersBothTimers : Obligations.TickLowersBothTimers := by
  unfold Obligations.TickLowersBothTimers
  refine ⟨fun s rest hrun hs => ?oneTick, fun n s rest hrun hs => ?ticks, fun s rest hstopped hs t ht => ?stopped⟩
  case oneTick =>
    exact ⟨_, step_tick hrun hs, tickReg_value _, tickReg_value _, tickReg_overflowed _, tickReg_borrowed _,
      tickReg_overflowed _, tickReg_borrowed _, rfl, State.tick_frame _⟩
  case ticks =>
    obtain ⟨hdt, hdtOverflowed, hdtBorrowed⟩ := tickReg_iterate n s.dt
    obtain ⟨hst, hstOverflowed, hstBorrowed⟩ := tickReg_iterate n s.st
    exact ⟨_, stepN_ticks hrun hs, hdt, hst, hdtOverflowed, hdtBorrowed, hstOverflowed, hstBorrowed, rfl, rfl⟩
  case stopped =>
    rw [step_of_schedule_cons hs] at ht
    exact hstopped (whenRunning_next ht).1

end Sys2Proof.Machine

/-! ## Exceptions: the record of a step's fault, and that no instruction is refused -/

namespace Sys2Proof.Machine

/-! ### The word of an instruction that faults -/

/-- A word that decodes has the group of its instruction's row: every mask of R66 keeps the top nibble. -/
theorem groupOf_of_decodeWord {w : Word} {i : Instr} (h : decodeWord w = .ok i) :
    groupOf w = groupOf (opcodeRow i).pattern := by
  obtain ⟨-, hmatch, -⟩ := decodeWord_ok h
  have hmask : (opcodeRow i).mask &&& 0xF000 = 0xF000 := by cases i <;> dsimp only [opcodeRow] <;> rfl
  rw [groupOf_mask w _ hmask, hmatch]

/-- Above group 9 no word is an alias: one that decodes is the canonical word of its instruction (R68). -/
theorem encode_of_decodeWord {w : Word} {i : Instr} (h : decodeWord w = .ok i) (hg : 0x9 < groupOf w) :
    encode i = w := by
  have hne : ∀ g : BitVec 4, g ≤ 0x9 → groupOf w ≠ g := fun g hle heq => absurd (heq ▸ hg) (BitVec.not_lt.2 hle)
  obtain ⟨-, -, -, -, hcanonical⟩ := aliasWordsDecodeAsTheCanonicalOne
  exact (hcanonical w i h (hne _ (by decide)) (hne _ (by decide)) (hne _ (by decide))).symm

/-- The fault of a decoded instruction, told by the word: an access in group D or F, or a keypad skip in group E; the
record's opcode is that word, since no word of these groups is an alias (R68, R151, R153, R154). -/
theorem exec_fault_of_decodeWord {w : Word} {i : Instr} {s : State} {f : Fault} (hdecode : decodeWord w = .ok i)
    (hfault : exec i s = .fault f) :
    ([0xD, 0xF].contains (groupOf w) ∧
      f = .addressRange { pc0 := s.pc.value, opcode := w, value := max s.i.value.toNat 4096 }) ∨
    (groupOf w = 0xE ∧ 15 < s.V (xOf w) ∧
      f = .keyCodeRange { pc0 := s.pc.value, opcode := w, value := s.V (xOf w) }) := by
  have hgroup := groupOf_of_decodeWord hdecode
  obtain ⟨haccess, rfl⟩ | ⟨x, hskip, hx, rfl⟩ := (onlyTheseInstructionsFault i s f).1 hfault
  · left
    have hDF : groupOf w = 0xD ∨ groupOf w = 0xF := by
      obtain ⟨x, y, n, rfl, -⟩ | ⟨x, rfl, -⟩ | ⟨x, rfl | rfl, -⟩ := haccess <;> dsimp only [opcodeRow] at hgroup
      · exact .inl hgroup
      all_goals exact .inr hgroup
    have hword : encode i = w := encode_of_decodeWord hdecode (by rcases hDF with h | h <;> rw [h] <;> decide)
    exact ⟨by rcases hDF with h | h <;> rw [h] <;> rfl, by rw [hword]⟩
  · right
    have hE : groupOf w = 0xE := by rcases hskip with rfl | rfl <;> dsimp only [opcodeRow] at hgroup <;> exact hgroup
    have hword : encode i = w := encode_of_decodeWord hdecode (by rw [hE]; decide)
    have hfield : xOf w = x := by rcases hskip with rfl | rfl <;> exact hword ▸ xOf_formatXK _ x _
    exact ⟨hE, by rwa [hfield], by rw [hword, hfield]⟩

/-! ### The step's fault (R151, R156) -/

/-- Settles O12: the step's three stages in order, the fetch's fault, the decode's, and the instruction's own. -/
theorem faultRecordNamesTheInstruction : Obligations.FaultRecordNamesTheInstruction := by
  unfold Obligations.FaultRecordNamesTheInstruction
  intro s rest f hnext hfault
  by_cases hpc : 4094 < s.pc.value.toNat
  case pos =>
    rw [step_fetchFault hnext hpc, Host.Outcome.fault.injEq] at hfault
    exact .inl ⟨hpc, hfault.symm⟩
  case neg =>
    obtain ⟨w, hfetch⟩ : ∃ w, fetch s = .ok w := ⟨_, fetch_ok (Nat.not_lt.1 hpc)⟩
    refine .inr ⟨w, hfetch, ?_⟩
    cases hunknown : unknownWord w with
    | true =>
      rw [step_unknownOpcode hnext hfetch ((decodeWord_error_iff w).2 hunknown), Host.Outcome.fault.injEq] at hfault
      exact .inl ⟨rfl, hfault.symm⟩
    | false =>
      obtain ⟨i, hdecode⟩ := (decodeWord_ok_iff w).2 hunknown
      rw [step_eq_exec hnext hfetch hdecode] at hfault
      exact .inr ((exec_fault_of_decodeWord hdecode hfault).imp (⟨rfl, ·⟩) (⟨rfl, ·⟩))

/-! ### No refusal (R163) -/

/-- Settles O14: what an instruction decides on is a list of writes or a fault. -/
theorem noInstructionIsRefused : Obligations.NoInstructionIsRefused := by
  unfold Obligations.NoInstructionIsRefused
  intro i s r
  rw [exec_eq]
  cases plan i s.view with
  | ok writes => exact nofun
  | error f => exact nofun

end Sys2Proof.Machine
